-- ==== Sys2Proof/Word.lean ====
section
/-! DEFINITION. The widths of the CORE (R7, R13, R40): a byte, a halfword, a 32-bit word. -/

namespace Sys2Proof

/-- 8 bits: one byte of a memory, `HOLD`, `ERR`, `PREFIX`, `CUR`, a register index, a response code. -/
abbrev Byte := BitVec 8

/-- 16 bits: `CSUM`, `EMCK`, `EMID`, `EMSEQ`, `PLEN`, `PKLEN`, a buffer address. -/
abbrev Half := BitVec 16

/-- 32 bits: a command word, `ACC`, `ADDR`, `START`, `END`, a response value. -/
abbrev Word := BitVec 32

end Sys2Proof
end

