-- ==== Sys2Proof/Config.lean ====
section
/-! DEFINITION. What an implementation fixes (R7): the payload capacity `PAY_MAX`, the one open parameter. -/

namespace Sys2Proof.Config

/-- The configuration of one CORE. R7: `PAY_MAX` is open, a natural number from 0 to 65527; the type carries the bound,
so `PAY_MAX + 8` fits the 16 bits of `PKLEN` (92_eei_decisions.md D10). -/
structure Params where
  payMax : Fin 65528
  deriving DecidableEq, Repr

/-- The configuration of `State.reset`. DESIGN CHOICE (log entry 1), unsafe: 64 is the default that
92_eei_decisions.md suggests for tests; the spec leaves the parameter open. -/
def Params.default : Params := { payMax := 64 }

end Sys2Proof.Config
end

