-- ==== Sys2Proof/Syntax.lean ====
section
/-! DEFINITION. The 18 commands of the CORE (R41), the four formats (R42), and the assembler's lines (R49, R50). -/

namespace Sys2Proof

/-- R41, R43: one constructor per row of the opcode table, operands as the fields they are taken from. -/
inductive Instr where
  | sysNop
  | sysRd (r : Byte)
  | sysClrerr
  | sysRst
  | ckClr
  | ckPutb (b : Byte)
  | ckPuth (h : Half)
  | ckFin
  | ckPkt
  | emNew (ident : Half)
  | emPayb (b : Byte)
  | emSer
  | ldPkt (a : Half)
  | ldPay (a : Half)
  | nrAdrh (v : Half)
  | nrAdrl (v : Half)
  | nrDerive (p : Byte)
  | nrNext
  deriving DecidableEq, Repr

/-- R42: where a command's operand stands. -/
inductive Format where
  /-- no operand -/
  | z
  /-- the operand is field `A` -/
  | a
  /-- the operand is `IMM[7:0]` -/
  | b
  /-- the operand is `IMM` -/
  | h
  deriving DecidableEq, Repr

/-- R41: the mnemonic of a command. -/
def Instr.mnemonic : Instr → String
  | .sysNop => "SYS.NOP"
  | .sysRd _ => "SYS.RD"
  | .sysClrerr => "SYS.CLRERR"
  | .sysRst => "SYS.RST"
  | .ckClr => "CK.CLR"
  | .ckPutb _ => "CK.PUTB"
  | .ckPuth _ => "CK.PUTH"
  | .ckFin => "CK.FIN"
  | .ckPkt => "CK.PKT"
  | .emNew _ => "EM.NEW"
  | .emPayb _ => "EM.PAYB"
  | .emSer => "EM.SER"
  | .ldPkt _ => "LD.PKT"
  | .ldPay _ => "LD.PAY"
  | .nrAdrh _ => "NR.ADRH"
  | .nrAdrl _ => "NR.ADRL"
  | .nrDerive _ => "NR.DERIVE"
  | .nrNext => "NR.NEXT"

/-- R41: the format of a command. -/
def Instr.format : Instr → Format
  | .sysNop => .z
  | .sysRd _ => .a
  | .sysClrerr => .z
  | .sysRst => .z
  | .ckClr => .z
  | .ckPutb _ => .b
  | .ckPuth _ => .h
  | .ckFin => .z
  | .ckPkt => .z
  | .emNew _ => .h
  | .emPayb _ => .b
  | .emSer => .z
  | .ldPkt _ => .h
  | .ldPay _ => .h
  | .nrAdrh _ => .h
  | .nrAdrl _ => .h
  | .nrDerive _ => .a
  | .nrNext => .z

/-- R43: the value of a command's operand, `none` for a command without one. -/
def Instr.operand : Instr → Option Nat
  | .sysNop | .sysClrerr | .sysRst | .ckClr | .ckFin | .ckPkt | .emSer | .nrNext => none
  | .sysRd v | .nrDerive v | .ckPutb v | .emPayb v => some v.toNat
  | .ckPuth v | .emNew v | .ldPkt v | .ldPay v | .nrAdrh v | .nrAdrl v => some v.toNat

/-- R49: one line of the assembler, `MNEMONIC` or `MNEMONIC operand`, before any check. -/
structure AsmLine where
  mnemonic : String
  operand : Option Nat
  deriving DecidableEq, Repr

/-- R50: the six pseudo-commands, with their operands before any check. -/
inductive Pseudo where
  | ckBytes (bs : List Nat)
  | ckSum (bs : List Nat)
  | emPayload (bs : List Nat)
  | emReq (ident : Nat) (bs : List Nat)
  | nrAddr (a b c d : Nat)
  | nrRange (a b c d p : Nat)
  deriving DecidableEq, Repr

/-- The line that spells a command. -/
def Instr.toAsm (i : Instr) : AsmLine := { mnemonic := i.mnemonic, operand := i.operand }

end Sys2Proof
end

