-- ==== Sys2Proof/WellFormed.lean ====
section
/-! DEFINITION. Which assembler lines spell a command (R49): the mnemonic is one of the 18, an operand stands exactly where the
format has one, and it fits its field. An `Instr` carries its operand as a bit vector of the field's width (R43), so every
`Instr` is well formed; `Instr.wellFormed` says so through the line that spells it. -/

namespace Sys2Proof

/-- R41: mnemonic and format of every command. -/
def mnemonicFormats : List (String × Format) :=
  [("SYS.NOP", .z), ("SYS.RD", .a), ("SYS.CLRERR", .z), ("SYS.RST", .z),
   ("CK.CLR", .z), ("CK.PUTB", .b), ("CK.PUTH", .h), ("CK.FIN", .z), ("CK.PKT", .z),
   ("EM.NEW", .h), ("EM.PAYB", .b), ("EM.SER", .z),
   ("LD.PKT", .h), ("LD.PAY", .h),
   ("NR.ADRH", .h), ("NR.ADRL", .h), ("NR.DERIVE", .a), ("NR.NEXT", .z)]

/-- The format of a mnemonic, `none` if no command has it. -/
def formatOfMnemonic (m : String) : Option Format := mnemonicFormats.lookup m

/-- R42, R49: an operand is present exactly in the formats that have one, and fits the field. -/
def operandFits : Format → Option Nat → Bool
  | .z, none => true
  | .a, some v => v < 2 ^ 8
  | .b, some v => v < 2 ^ 8
  | .h, some v => v < 2 ^ 16
  | _, _ => false

/-- R49: the assembler accepts the line. -/
def AsmLine.wellFormed (l : AsmLine) : Bool :=
  match formatOfMnemonic l.mnemonic with
  | none => false
  | some f => operandFits f l.operand

/-- A command is well formed when the line that spells it is. -/
def Instr.wellFormed (i : Instr) : Bool := i.toAsm.wellFormed

end Sys2Proof
end

