-- ==== Sys2Proof/Decode.lean ====
section
/-! DEFINITION. The command word (R40), decoding by the procedure of R48, and after it the encoder, the opcode table of R41
with its masks, and the assembler of R49 and R50. -/

namespace Sys2Proof

/-- R40: `OP = W[31:24]`. -/
def opField (w : Word) : Byte := w.extractLsb' 24 8

/-- R40: `A = W[23:16]`. -/
def aField (w : Word) : Byte := w.extractLsb' 16 8

/-- R40: `IMM = W[15:0]`. -/
def immField (w : Word) : Half := w.extractLsb' 0 16

/-- R42: `IMM[15:8]`. -/
def immHigh (w : Word) : Byte := w.extractLsb' 8 8

/-- R42: `IMM[7:0]`. -/
def immLow (w : Word) : Byte := w.extractLsb' 0 8

/-- R44: the two kinds of illegal word. -/
inductive IllegalWord where
  /-- (a) `OP` is not one of the 18 opcodes -/
  | undefinedOpcode
  /-- (b) `OP` is an opcode but a reserved bit of its format is 1 -/
  | reservedBit
  deriving DecidableEq, Repr

/-- What decoding answers on a word (R48). -/
inductive Decoded where
  | command (i : Instr)
  | illegal (why : IllegalWord)
  deriving DecidableEq, Repr

/-- R41, R43: an opcode, with the command it selects as a function of the operand its format has. -/
inductive Opcode where
  | z (i : Instr)
  | a (mk : Byte → Instr)
  | b (mk : Byte → Instr)
  | h (mk : Half → Instr)

/-- R41: one line of the opcode map. -/
structure CommandRow where
  op : Byte
  mnemonic : String
  command : Opcode

/-- R41: the opcode map. -/
def commandMap : List CommandRow :=
  [⟨0x00, "SYS.NOP", .z .sysNop⟩,
   ⟨0x01, "SYS.RD", .a .sysRd⟩,
   ⟨0x02, "SYS.CLRERR", .z .sysClrerr⟩,
   ⟨0x03, "SYS.RST", .z .sysRst⟩,
   ⟨0x10, "CK.CLR", .z .ckClr⟩,
   ⟨0x11, "CK.PUTB", .b .ckPutb⟩,
   ⟨0x12, "CK.PUTH", .h .ckPuth⟩,
   ⟨0x13, "CK.FIN", .z .ckFin⟩,
   ⟨0x14, "CK.PKT", .z .ckPkt⟩,
   ⟨0x20, "EM.NEW", .h .emNew⟩,
   ⟨0x21, "EM.PAYB", .b .emPayb⟩,
   ⟨0x22, "EM.SER", .z .emSer⟩,
   ⟨0x30, "LD.PKT", .h .ldPkt⟩,
   ⟨0x31, "LD.PAY", .h .ldPay⟩,
   ⟨0x40, "NR.ADRH", .h .nrAdrh⟩,
   ⟨0x41, "NR.ADRL", .h .nrAdrl⟩,
   ⟨0x42, "NR.DERIVE", .a .nrDerive⟩,
   ⟨0x43, "NR.NEXT", .z .nrNext⟩]

/-- R41: the command of an opcode; `none` for the opcodes of R44 (a). -/
def opcodeOf (op : Byte) : Option Opcode := (commandMap.find? fun r => r.op = op).map fun r => r.command

/-- R48: the format's reserved bits must be zero; then the operand of R43. -/
def Opcode.decode (o : Opcode) (w : Word) : Decoded :=
  match o with
  | .z i => if aField w = 0 ∧ immField w = 0 then .command i else .illegal .reservedBit
  | .a mk => if immField w = 0 then .command (mk (aField w)) else .illegal .reservedBit
  | .b mk => if aField w = 0 ∧ immHigh w = 0 then .command (mk (immLow w)) else .illegal .reservedBit
  | .h mk => if aField w = 0 then .command (mk (immField w)) else .illegal .reservedBit

/-- R48: decoding, total on 32-bit words and reading nothing but the word. -/
def decode (w : Word) : Decoded :=
  match opcodeOf (opField w) with
  | none => .illegal .undefinedOpcode
  | some o => o.decode w

/-- The command of a word, `none` if the word is illegal. -/
def decode? (w : Word) : Option Instr :=
  match decode w with
  | .command i => some i
  | .illegal _ => none

/-- The command word of a table row's bits: `spec/opcode_table.json` numbers a command's bits as the word itself does (R40),
and bits at and above `nbits` are zero. -/
def tableWord (nbits w : Nat) : Word := BitVec.ofNat 32 (w % 2 ^ nbits)

/-- The instruction the decoder reads from the bits `w` of a table row. -/
def decodeTableWord (nbits w : Nat) : Option Instr := decode? (tableWord nbits w)

/-- A word of format Z (R42). -/
def wordZ (op : Byte) : Word := op ++ (0 : Byte) ++ (0 : Half)

/-- A word of format A (R42). -/
def wordA (op v : Byte) : Word := op ++ v ++ (0 : Half)

/-- A word of format B (R42). -/
def wordB (op v : Byte) : Word := op ++ (0 : Byte) ++ ((0 : Byte) ++ v : Half)

/-- A word of format H (R42). -/
def wordH (op : Byte) (v : Half) : Word := op ++ (0 : Byte) ++ v

/-- R41, R42: the word of a command. -/
def encode : Instr → Word
  | .sysNop => wordZ 0x00
  | .sysRd r => wordA 0x01 r
  | .sysClrerr => wordZ 0x02
  | .sysRst => wordZ 0x03
  | .ckClr => wordZ 0x10
  | .ckPutb b => wordB 0x11 b
  | .ckPuth h => wordH 0x12 h
  | .ckFin => wordZ 0x13
  | .ckPkt => wordZ 0x14
  | .emNew v => wordH 0x20 v
  | .emPayb b => wordB 0x21 b
  | .emSer => wordZ 0x22
  | .ldPkt a => wordH 0x30 a
  | .ldPay a => wordH 0x31 a
  | .nrAdrh v => wordH 0x40 v
  | .nrAdrl v => wordH 0x41 v
  | .nrDerive p => wordA 0x42 p
  | .nrNext => wordZ 0x43

/-- One row of R41. A word is the row's command exactly when `w &&& mask = pattern`. -/
structure OpcodeRow where
  mnemonic : String
  pattern : Word
  mask : Word
  deriving DecidableEq, Repr

/-- The word matches the row (R41, R44). -/
abbrev OpcodeRow.matchesWord (r : OpcodeRow) (w : Word) : Prop := w &&& r.mask = r.pattern

/-- R41: the 18 rows, as the table prints them. -/
def opcodeTable : List OpcodeRow :=
  [⟨"SYS.NOP", 0x00000000, 0xFFFFFFFF⟩, ⟨"SYS.RD", 0x01000000, 0xFF00FFFF⟩,
   ⟨"SYS.CLRERR", 0x02000000, 0xFFFFFFFF⟩, ⟨"SYS.RST", 0x03000000, 0xFFFFFFFF⟩,
   ⟨"CK.CLR", 0x10000000, 0xFFFFFFFF⟩, ⟨"CK.PUTB", 0x11000000, 0xFFFFFF00⟩,
   ⟨"CK.PUTH", 0x12000000, 0xFFFF0000⟩, ⟨"CK.FIN", 0x13000000, 0xFFFFFFFF⟩,
   ⟨"CK.PKT", 0x14000000, 0xFFFFFFFF⟩, ⟨"EM.NEW", 0x20000000, 0xFFFF0000⟩,
   ⟨"EM.PAYB", 0x21000000, 0xFFFFFF00⟩, ⟨"EM.SER", 0x22000000, 0xFFFFFFFF⟩,
   ⟨"LD.PKT", 0x30000000, 0xFFFF0000⟩, ⟨"LD.PAY", 0x31000000, 0xFFFF0000⟩,
   ⟨"NR.ADRH", 0x40000000, 0xFFFF0000⟩, ⟨"NR.ADRL", 0x41000000, 0xFFFF0000⟩,
   ⟨"NR.DERIVE", 0x42000000, 0xFF00FFFF⟩, ⟨"NR.NEXT", 0x43000000, 0xFFFFFFFF⟩]

/-! ### The assembler (R49, R50) -/

/-- Why the assembler rejects its text. -/
inductive AsmError where
  /-- the first word of the line is no mnemonic and no pseudo-command -/
  | unknownMnemonic
  /-- an operand is missing, is there where none may be, is no number, or does not fit its field -/
  | badOperand
  deriving DecidableEq, Repr

/-- What the assembler answers: the commands in order, or the first rejection. -/
inductive Assembled where
  | commands (is : List Instr)
  | rejected (why : AsmError)
  deriving DecidableEq, Repr

/-- Commands of one line followed by those of the next. -/
def Assembled.append : Assembled → Assembled → Assembled
  | .commands xs, .commands ys => .commands (xs ++ ys)
  | .commands _, .rejected e => .rejected e
  | .rejected e, _ => .rejected e

/-- R41: the command of a mnemonic, `none` if no command has it. -/
def opcodeOfMnemonic (m : String) : Option Opcode := (commandMap.find? fun r => r.mnemonic = m).map fun r => r.command

/-- R42, R43, R49: the command with an operand; the operand is there exactly where the format has one, and one that does not fit its
field is rejected. -/
def Opcode.assemble (o : Opcode) (operand : Option Nat) : Assembled :=
  match o, operand with
  | .z i, none => .commands [i]
  | .a mk, some v => if v < 2 ^ 8 then .commands [mk (BitVec.ofNat 8 v)] else .rejected .badOperand
  | .b mk, some v => if v < 2 ^ 8 then .commands [mk (BitVec.ofNat 8 v)] else .rejected .badOperand
  | .h mk, some v => if v < 2 ^ 16 then .commands [mk (BitVec.ofNat 16 v)] else .rejected .badOperand
  | .z _, some _ => .rejected .badOperand
  | .a _, none => .rejected .badOperand
  | .b _, none => .rejected .badOperand
  | .h _, none => .rejected .badOperand

/-- R49: a line of a core command. -/
def AsmLine.assemble (l : AsmLine) : Assembled :=
  match opcodeOfMnemonic l.mnemonic with
  | none => .rejected .unknownMnemonic
  | some o => o.assemble l.operand

/-- A list of core lines, in order. -/
def assembleLines : List AsmLine → Assembled
  | [] => .commands []
  | l :: ls => l.assemble.append (assembleLines ls)

/-- `MNEMONIC b` for each byte of a list. -/
def byteLines (m : String) (bs : List Nat) : List AsmLine := bs.map fun b => ⟨m, some b⟩

/-- R50: the expansion of a pseudo-command, as core lines. -/
def Pseudo.expand : Pseudo → List AsmLine
  | .ckBytes bs => byteLines "CK.PUTB" bs
  | .ckSum bs => ⟨"CK.CLR", none⟩ :: (byteLines "CK.PUTB" bs ++ [⟨"CK.FIN", none⟩])
  | .emPayload bs => byteLines "EM.PAYB" bs
  | .emReq v bs => ⟨"EM.NEW", some v⟩ :: byteLines "EM.PAYB" bs
  | .nrAddr a b c d => [⟨"NR.ADRH", some (a * 256 + b)⟩, ⟨"NR.ADRL", some (c * 256 + d)⟩]
  | .nrRange a b c d p =>
    [⟨"NR.ADRH", some (a * 256 + b)⟩, ⟨"NR.ADRL", some (c * 256 + d)⟩, ⟨"NR.DERIVE", some p⟩]

/-- R50: `CK.BYTES` and `EM.PAYLOAD` take at least one byte, and the parts of an IPv4 address are bytes (R8). -/
def Pseudo.operandsFit : Pseudo → Bool
  | .ckBytes bs => !bs.isEmpty
  | .ckSum _ => true
  | .emPayload bs => !bs.isEmpty
  | .emReq _ _ => true
  | .nrAddr a b c d => a < 256 && b < 256 && c < 256 && d < 256
  | .nrRange a b c d _ => a < 256 && b < 256 && c < 256 && d < 256

/-- R50: a pseudo-command becomes the commands of its expansion. -/
def Pseudo.assemble (q : Pseudo) : Assembled :=
  if q.operandsFit then assembleLines q.expand else .rejected .badOperand

/-- The value of a digit below `base`. -/
def digitValue (base : Nat) (c : Char) : Option Nat :=
  let n := c.toNat
  let v := if 48 ≤ n ∧ n ≤ 57 then some (n - 48)
    else if 65 ≤ n ∧ n ≤ 70 then some (n - 55)
    else if 97 ≤ n ∧ n ≤ 102 then some (n - 87)
    else none
  v.bind fun d => if d < base then some d else none

/-- Digits read onto a running value. -/
def digitsOnto (base : Nat) : Nat → List Char → Option Nat
  | acc, [] => some acc
  | acc, c :: cs => (digitValue base c).bind fun d => digitsOnto base (acc * base + d) cs

/-- A number in a base, of at least one digit. -/
def parseBase (base : Nat) (cs : List Char) : Option Nat :=
  if cs.isEmpty then none else digitsOnto base 0 cs

/-- R49: a decimal number, or a hexadecimal number with `0x`. DESIGN CHOICE (log entry 9): digits above 9 in either case, leading zeros
allowed. -/
def parseNumber : List Char → Option Nat
  | '0' :: 'x' :: cs => parseBase 16 cs
  | cs => parseBase 10 cs

/-- The pieces of a text between occurrences of a character. -/
def pieces (sep : Char) : List Char → List (List Char)
  | [] => [[]]
  | c :: cs =>
    match pieces sep cs with
    | [] => [[c]]
    | p :: ps => if c = sep then [] :: p :: ps else (c :: p) :: ps

/-- A text without its leading and trailing blanks. -/
def trimBlanks (cs : List Char) : List Char :=
  ((cs.dropWhile fun c => c = ' ').reverse.dropWhile fun c => c = ' ').reverse

/-- Every element of a list of optional numbers, or none of them. -/
def allSome : List (Option Nat) → Option (List Nat)
  | [] => some []
  | none :: _ => none
  | some n :: rest => (allSome rest).map fun ns => n :: ns

/-- A list of numbers separated by commas; blank text is the empty list. -/
def parseNumbers (cs : List Char) : Option (List Nat) :=
  if cs.isEmpty then some [] else allSome ((pieces ',' cs).map fun p => parseNumber (trimBlanks p))

/-- The four parts of `a.b.c.d` (R8). DESIGN CHOICE (log entry 9): each is decimal. -/
def parseAddress (cs : List Char) : Option (Nat × Nat × Nat × Nat) :=
  match allSome ((pieces '.' cs).map (parseBase 10)) with
  | some [a, b, c, d] => some (a, b, c, d)
  | _ => none

/-- R50: the pseudo-command a mnemonic and its operand text spell, `none` if the mnemonic is no pseudo-command. DESIGN CHOICE (log entry 9):
`p` of `NR.RANGE a.b.c.d/p` has the number forms R49 gives an operand, decimal or `0x`, and no blank stands beside the `/`. -/
def parsePseudo (m : String) (ops : List Char) : Option (Option Pseudo) :=
  if m = "CK.BYTES" then some ((parseNumbers ops).map .ckBytes)
  else if m = "CK.SUM" then some ((parseNumbers ops).map .ckSum)
  else if m = "EM.PAYLOAD" then some ((parseNumbers ops).map .emPayload)
  else if m = "EM.REQ" then some (match parseNumbers ops with
    | some (v :: bs) => some (.emReq v bs)
    | _ => none)
  else if m = "NR.ADDR" then some ((parseAddress ops).map fun (a, b, c, d) => .nrAddr a b c d)
  else if m = "NR.RANGE" then some (match pieces '/' ops with
    | [adr, p] => (parseAddress adr).bind fun (a, b, c, d) => (parseNumber p).map (.nrRange a b c d)
    | _ => none)
  else none

/-- R49: one line of text; a comment runs from `;`. DESIGN CHOICE (log entry 9): one or more blanks stand between the mnemonic and its
operand, blanks at either end of the line and before a comment are skipped, and a line without a command assembles to nothing. -/
def assembleText (line : List Char) : Assembled :=
  let body := trimBlanks (line.takeWhile fun c => c ≠ ';')
  let m := String.ofList (body.takeWhile fun c => c ≠ ' ')
  let ops := trimBlanks (body.dropWhile fun c => c ≠ ' ')
  if body.isEmpty then .commands []
  else match parsePseudo m ops with
    | some (some q) => q.assemble
    | some none => .rejected .badOperand
    | none =>
      if ops.isEmpty then AsmLine.assemble ⟨m, none⟩
      else match parseNumber ops with
        | none => (if (opcodeOfMnemonic m).isSome then .rejected .badOperand else .rejected .unknownMnemonic)
        | some v => AsmLine.assemble ⟨m, some v⟩

/-- R49: a text, one command per line. -/
def assembleProgram (text : List Char) : Assembled :=
  (pieces '\n' text).foldr (fun l rest => (assembleText l).append rest) (.commands [])

end Sys2Proof
end

