-- ==== Sys2Proof/Machine/State.lean ====
section
/-! DEFINITION. The complete state of the CORE (R13) grouped by its units, the model's own fields beside it (configuration and
host port), the ways a step can stop, and the state after reset (R28). Plain data throughout. -/

namespace Sys2Proof.Machine

/-- A byte memory: the bytes that differ from what an unlisted address reads as, by rising address (R26). -/
abbrev Memory := List Host.Cell

/-- R31: the two byte-addressed spaces. -/
inductive Space where
  | pay
  | pkt
  deriving DecidableEq, Repr

/-- R14: the registers in the order of their numbers, 0 to 19. -/
inductive Reg where
  | status | err | acc | hold | csum | emtype | emcode | emck | emid | emseq
  | plen | pklen | addr | pfx | rbytes | rbits | startA | endA | cur | cap
  deriving DecidableEq, Repr

/-- R90: the error codes 1 to 7, in order. -/
inductive ErrorCode where
  | invalidPrefix
  | subnetTooLarge
  | illegalCommand
  | payloadFull
  | badAddress
  | noRange
  | rangeDone
  deriving DecidableEq, Repr

/-- R47: the response of a command. -/
structure Response where
  code : Byte
  val : Word
  deriving DecidableEq, Repr

/-- R4, R101: what the host can do to the CORE: present a command word, or assert the reset input. -/
inductive HostInput where
  | command (w : Word)
  | resetInput
  deriving DecidableEq, Repr

/-- R13, group CK: the checksum unit (R21). -/
structure CkUnit where
  /-- `ACC`: sum of the completed 16-bit words -/
  acc : Word
  /-- `HOLD`: high byte of the word in progress -/
  hold : Byte
  /-- `ODD`: a byte is waiting in `HOLD` -/
  odd : Bool
  /-- `CSUM`: result of the last finalisation -/
  csum : Half
  /-- `Z`: the last finalisation gave zero -/
  z : Bool
  deriving DecidableEq, Repr

/-- R13, group EM: the stored message (R22) and the serialized packet (R23). `EMTYPE` and `EMCODE` are hardwired (R15) and have
no storage. -/
structure EmUnit where
  emck : Half
  emid : Half
  emseq : Half
  plen : Half
  pay : Memory
  pklen : Half
  pkt : Memory
  deriving DecidableEq, Repr

/-- R13, group NR: the range and its iterator (R24, R78). `pfx` is the register the spec calls `PREFIX`, `startA` and `endA`
are `START` and `END`. -/
structure NrUnit where
  addr : Word
  pfx : Byte
  rbytes : BitVec 3
  rbits : BitVec 3
  startA : Word
  endA : Word
  cur : Byte
  rvalid : Bool
  done : Bool
  deriving DecidableEq, Repr

/-- The host's side, the model's own fields and no state of the CORE (R16, R29): the host's finite input sequence, its position
in it, and the response the last step put out (`none` when it put out none). Log entries 2 and 4. -/
structure HostPort where
  program : List HostInput
  pc : Nat
  rsp : Option Response
  deriving DecidableEq, Repr

/-- The machine: the CORE's four groups of R13, its configuration (R7), and the host's side. -/
structure State where
  cfg : Config.Params
  ck : CkUnit
  em : EmUnit
  nr : NrUnit
  /-- `ERR` (R19) -/
  err : Byte
  host : HostPort
  deriving DecidableEq, Repr

/-- Why the machine can stop with a fault. -/
inductive Fault where
  /-- An access to `PAY` or `PKT` at or beyond its capacity (R31). Raised by CK.PKT, EM.PAYB, EM.SER, LD.PKT and LD.PAY. R32: no
  rule ever computes such an address, so no run from reset raises it (`Inv` rules it out). Safe: the model stops where the spec
  says nothing can arrive. Log entry 5. -/
  | outsideCapacity (sp : Space)
  deriving DecidableEq, Repr

/-- Why the machine can refuse an instruction. -/
inductive Refusal where
  /-- Raised by `exec` for a constructor that has no meaning; no arm does so, every command has one. Safe. -/
  | notModelled (mnemonic : String)
  deriving DecidableEq, Repr

/-- R28: the checksum unit after reset. -/
def CkUnit.reset : CkUnit := { acc := 0, hold := 0, odd := false, csum := 0, z := false }

/-- R28, R102: the message `newEchoRequest(0, nil)`, no packet. R103 lets a model take the memories as all zero after reset (log
entry 3); no response depends on it. -/
def EmUnit.reset : EmUnit :=
  { emck := 0, emid := 0, emseq := 0, plen := 0, pay := [], pklen := 0, pkt := [] }

/-- R28: address 0.0.0.0 and no range. -/
def NrUnit.reset : NrUnit :=
  { addr := 0, pfx := 0, rbytes := 0, rbits := 0, startA := 0, endA := 0, cur := 0, rvalid := false, done := false }

/-- R28: a CORE of the given configuration right after reset, the host having issued nothing. -/
def State.resetWith (cfg : Config.Params) : State :=
  { cfg := cfg, ck := .reset, em := .reset, nr := .reset, err := 0, host := { program := [], pc := 0, rsp := none } }

/-- The machine right after reset (R28), with the configuration of log entry 1. -/
def State.reset : State := State.resetWith .default

end Sys2Proof.Machine
end

