-- ==== Sys2Proof/Machine/Flags.lean ====
section
/-! DEFINITION. Every flag computation of the spec (R17) and the `STATUS` view (R18). -/

namespace Sys2Proof.Machine

/-- R17, R56: `Z` after a finalisation that gives `c`. -/
def zFlag (c : Half) : Bool := c == 0

/-- R17, R54: `ODD` after one more byte. -/
def oddFlip (odd : Bool) : Bool := !odd

/-- R17, R74: `DONE` after a derivation: the range is empty when the start octet is above the end octet. -/
def emptyRangeFlag (s e : Word) : Bool := s.extractLsb' 0 8 > e.extractLsb' 0 8

/-- R17, R18: `EF` is 1 exactly when `ERR` is not 0. -/
def efFlag (err : Byte) : Bool := err != 0

/-- R18: `STATUS` is 27 zero bits, then `EF`, `DONE`, `RVALID`, `Z`, `ODD`. -/
def statusView (s : State) : Word :=
  (0 : BitVec 27) ++ BitVec.ofBool (efFlag s.err) ++ BitVec.ofBool s.nr.done ++ BitVec.ofBool s.nr.rvalid
    ++ BitVec.ofBool s.ck.z ++ BitVec.ofBool s.ck.odd

end Sys2Proof.Machine
end

