-- ==== Sys2Proof/Machine/Operands.lean ====
section
/-! DEFINITION. Every operand form: the bytes of a halfword and of an address (R25, R33, R43), the register operand of SYS.RD
(R14, R84), the prefix operand's two parts (R70, R81). -/

namespace Sys2Proof.Machine

/-- R22: `EMTYPE`, hardwired. -/
def emType : Byte := 8

/-- R22: `EMCODE`, hardwired. -/
def emCode : Byte := 0

/-- R33: the first byte of a halfword laid out in bytes, `h[15:8]`. -/
def hiByte (h : Half) : Byte := h.extractLsb' 8 8

/-- R33: the second byte of a halfword laid out in bytes, `h[7:0]`. -/
def loByte (h : Half) : Byte := h.extractLsb' 0 8

/-- R54: the word value `hi * 256 + lo`, as a 32-bit summand. -/
def pairWord (hi lo : Byte) : Word := (hi ++ lo : Half).setWidth 32

/-- R25: byte `k` of a 4-byte register, byte 0 in bits 31:24. -/
def addrByte (x : Word) (k : Nat) : Byte := x.extractLsb' (24 - 8 * k) 8

/-- R25: the host octet, byte 3. -/
def hostOctet (x : Word) : Byte := x.extractLsb' 0 8

/-- R74, R79: an address whose first three bytes are those of `x` and whose host octet is `o`. -/
def withOctet (x : Word) (o : Byte) : Word := x.extractLsb' 8 24 ++ o

/-- R72: `ADDR` with bytes 0 and 1 loaded. -/
def withAddrHigh (x : Word) (v : Half) : Word := v ++ (x.extractLsb' 0 16 : Half)

/-- R73: `ADDR` with bytes 2 and 3 loaded. -/
def withAddrLow (x : Word) (v : Half) : Word := (x.extractLsb' 16 16 : Half) ++ v

/-- R70, R81: `reservedBytes = p / 8`, in the 3 bits of `RBYTES`. -/
def reservedBytes (p : Byte) : BitVec 3 := (p / 8).setWidth 3

/-- R70, R81: `reservedBits = p % 8`. -/
def reservedBits (p : Byte) : BitVec 3 := (p % 8).setWidth 3

/-- R70, R81: the end octet of a range that is not a single address. -/
def endOctet (bits : BitVec 3) : Byte :=
  if bits = 0 then 254 else BitVec.ofNat 8 (2 ^ (8 - bits.toNat) - 2)

/-- R14: the register of a number, `none` for 20 to 255. -/
def regOfIndex (r : Byte) : Option Reg :=
  match r.toNat with
  | 0 => some .status
  | 1 => some .err
  | 2 => some .acc
  | 3 => some .hold
  | 4 => some .csum
  | 5 => some .emtype
  | 6 => some .emcode
  | 7 => some .emck
  | 8 => some .emid
  | 9 => some .emseq
  | 10 => some .plen
  | 11 => some .pklen
  | 12 => some .addr
  | 13 => some .pfx
  | 14 => some .rbytes
  | 15 => some .rbits
  | 16 => some .startA
  | 17 => some .endA
  | 18 => some .cur
  | 19 => some .cap
  | _ => none

/-- R14, R15, R18, R20: what a register holds, zero-extended to 32 bits; `EMTYPE`, `EMCODE` and `CAP` are hardwired and `STATUS` is
a view. -/
def regValue (s : State) : Reg → Word
  | .status => statusView s
  | .err => s.err.setWidth 32
  | .acc => s.ck.acc
  | .hold => s.ck.hold.setWidth 32
  | .csum => s.ck.csum.setWidth 32
  | .emtype => emType.setWidth 32
  | .emcode => emCode.setWidth 32
  | .emck => s.em.emck.setWidth 32
  | .emid => s.em.emid.setWidth 32
  | .emseq => s.em.emseq.setWidth 32
  | .plen => s.em.plen.setWidth 32
  | .pklen => s.em.pklen.setWidth 32
  | .addr => s.nr.addr
  | .pfx => s.nr.pfx.setWidth 32
  | .rbytes => s.nr.rbytes.setWidth 32
  | .rbits => s.nr.rbits.setWidth 32
  | .startA => s.nr.startA
  | .endA => s.nr.endA
  | .cur => s.nr.cur.setWidth 32
  | .cap => BitVec.ofNat 32 s.cfg.payMax.val

end Sys2Proof.Machine
end

