-- ==== Sys2Proof/Machine/Ops.lean ====
section
/-! DEFINITION. The shared operations: the byte memories (R26, R31, R32), answering a command and raising an error (R10, R47, R92),
reset (R28, R101), the host's side (R16), and the bodies of the checksum unit that several commands perform (R53, R54, R56). -/

namespace Sys2Proof.Machine

/-! ### Memory -/

/-- What a byte that nothing has written reads as. DESIGN CHOICE (log entry 3): zero, one of the two choices R103 gives a model. -/
def unwritten : Byte := 0

/-- The byte at an address. -/
def Memory.read : Memory → Nat → Byte
  | [], _ => unwritten
  | (k, v) :: m, a => if a = k then v else Memory.read m a

/-- R10: `MemWrite(S, a, 1, v)`, keeping addresses rising and no entry equal to `unwritten`. -/
def Memory.write : Memory → Nat → Byte → Memory
  | [], a, v => if v = unwritten then [] else [(a, v)]
  | (k, u) :: m, a, v =>
    if a < k then (if v = unwritten then (k, u) :: m else (a, v) :: (k, u) :: m)
    else if a = k then (if v = unwritten then m else (a, v) :: m)
    else (k, u) :: Memory.write m a v

/-- Bytes written one after another from an address on. -/
def Memory.writeFrom : Memory → Nat → List Byte → Memory
  | m, _, [] => m
  | m, a, b :: bs => Memory.writeFrom (m.write a b) (a + 1) bs

/-- The bytes at addresses `0 .. n - 1`, in order. -/
def Memory.slice (m : Memory) (n : Nat) : List Byte := (List.range n).map m.read

/-- Every entry is at or above `lo`, addresses rise strictly, and no entry equals `unwritten`. -/
def Memory.wfFrom : Nat → Memory → Bool
  | _, [] => true
  | lo, (k, v) :: m => decide (lo ≤ k) && v != unwritten && Memory.wfFrom (k + 1) m

/-- The canonical form of a memory: equal memories are equal lists. -/
def Memory.wf (m : Memory) : Bool := Memory.wfFrom 0 m

/-- The memory of a space. -/
def State.mem (s : State) : Space → Memory
  | .pay => s.em.pay
  | .pkt => s.em.pkt

/-- R10: `MemRead(S, a, 1)`. -/
def State.byteAt (s : State) (sp : Space) (a : Nat) : Byte := (s.mem sp).read a

/-- R31, R7: the capacity of a space. -/
def State.capacity (s : State) : Space → Nat
  | .pay => s.cfg.payMax.val
  | .pkt => s.cfg.payMax.val + 8

/-- R31, R32: an access to the first `n` bytes of a space goes on only inside the capacity. -/
def guardCapacity (s : State) (sp : Space) (n : Nat) (k : Host.Outcome State Fault Refusal) :
    Host.Outcome State Fault Refusal :=
  if n ≤ s.capacity sp then k else .fault (.outsideCapacity sp)

/-! ### Responses and errors -/

/-- R90: the number of an error. -/
def ErrorCode.code : ErrorCode → Byte
  | .invalidPrefix => 1
  | .subnetTooLarge => 2
  | .illegalCommand => 3
  | .payloadFull => 4
  | .badAddress => 5
  | .noRange => 6
  | .rangeDone => 7

/-- Put a response on the response port. -/
def State.withRsp (s : State) (r : Option Response) : State := { s with host := { s.host with rsp := r } }

/-- R10: `respond(v)`: the command completes with `(0, v)`. -/
def respond (v : Word) (s : State) : Host.Outcome State Fault Refusal :=
  .next (s.withRsp (some { code := 0, val := v }))

/-- R10: a command without a `respond` completes with `(0, 0)`. -/
def complete (s : State) : Host.Outcome State Fault Refusal := respond 0 s

/-- R10, R92: `raise E`: what the state given already holds is kept, `ERR` gets the code, the response is `(code, 0)`; nothing is saved
and control goes nowhere. There is no return from it (R96). -/
def raise (e : ErrorCode) (s : State) : Host.Outcome State Fault Refusal :=
  .next ({ s with err := e.code }.withRsp (some { code := e.code, val := 0 }))

/-- R44, R48: executing an illegal word. -/
def execIllegal (s : State) : Host.Outcome State Fault Refusal := raise .illegalCommand s

/-! ### Reset -/

/-- R28, R101, R102: every register and flag takes its reset value. The memories are taken as all zero, as R103 allows (log entry 3).
The configuration and the host's side are not the CORE's to reset. -/
def resetCore (s : State) : State := { s with ck := .reset, em := .reset, nr := .reset, err := 0 }

/-- R101: the reset input resets the CORE and produces no response. -/
def execResetInput (s : State) : Host.Outcome State Fault Refusal := .next ((resetCore s).withRsp none)

/-! ### The host's side -/

/-- R16: the input at the host's position, `none` when the host has issued all it will. -/
def State.nextInput (s : State) : Option HostInput := s.host.program[s.host.pc]?

/-- R16: the position moves on by one, whatever the response will be. -/
def State.advance (s : State) : State := { s with host := { s.host with pc := s.host.pc + 1 } }

/-- R102, R105: with nothing presented the CORE waits, and puts out no response. -/
def execWait (s : State) : Host.Outcome State Fault Refusal := .next (s.withRsp none)

/-- A sequence with `x` at position `n`, padded with SYS.NOP words where it is too short. -/
def placeAt (x : HostInput) : Nat → List HostInput → List HostInput
  | 0, [] => [x]
  | 0, _ :: l => x :: l
  | n + 1, [] => .command 0 :: placeAt x n []
  | n + 1, y :: l => y :: placeAt x n l

/-- The state in which the host presents the input `x` next (log entry 2). -/
def State.placeInput (s : State) (x : HostInput) : State :=
  { s with host := { s.host with program := placeAt x s.host.pc s.host.program } }

/-- The state in which the host presents the word `w` next. -/
def State.placeCommand (s : State) (w : Word) : State := s.placeInput (.command w)

/-! ### Bodies of the checksum unit -/

/-- R53: start a new stream; `CSUM` and `Z` stay. -/
def CkUnit.clear (c : CkUnit) : CkUnit := { c with acc := 0, hold := 0, odd := false }

/-- R54: push one byte. -/
def CkUnit.pushByte (c : CkUnit) (b : Byte) : CkUnit :=
  if c.odd = false then { c with hold := b, odd := oddFlip c.odd }
  else { c with acc := c.acc + pairWord c.hold b, hold := 0, odd := oddFlip c.odd }

/-- R57, R66: push the bytes of a buffer in increasing order. -/
def CkUnit.pushBytes (c : CkUnit) (bs : List Byte) : CkUnit := bs.foldl CkUnit.pushByte c

/-- R56: `t`, the sum with the odd byte padded by a zero low byte. -/
def CkUnit.paddedSum (c : CkUnit) : Word := c.acc + (if c.odd then pairWord c.hold 0 else 0)

/-- R56: truncate to 16 bits, then complement. -/
def CkUnit.result (c : CkUnit) : Half := ~~~(c.paddedSum.extractLsb' 0 16)

/-- R56: finalise; `ACC`, `HOLD`, `ODD` stay. -/
def CkUnit.finalise (c : CkUnit) : CkUnit := { c with csum := c.result, z := zFlag c.result }

/-- R57, R66: clear, push a whole buffer, finalise. -/
def CkUnit.sumBuffer (c : CkUnit) (bs : List Byte) : CkUnit := (c.clear.pushBytes bs).finalise

end Sys2Proof.Machine
end

