-- ==== Sys2Proof/Machine/Checksum.lean ====
section
/-! DEFINITION. The CK family: CK.CLR, CK.PUTB, CK.PUTH, CK.FIN, CK.PKT (R53 to R57). -/

namespace Sys2Proof.Machine

/-- R53. -/
def execCkClr (s : State) : Host.Outcome State Fault Refusal := complete { s with ck := s.ck.clear }

/-- R54. -/
def execCkPutb (b : Byte) (s : State) : Host.Outcome State Fault Refusal := complete { s with ck := s.ck.pushByte b }

/-- R55: the body of CK.PUTB twice, the high byte first. -/
def execCkPuth (h : Half) (s : State) : Host.Outcome State Fault Refusal :=
  complete { s with ck := (s.ck.pushByte (hiByte h)).pushByte (loByte h) }

/-- R56. -/
def execCkFin (s : State) : Host.Outcome State Fault Refusal :=
  respond (s.ck.finalise.csum.setWidth 32) { s with ck := s.ck.finalise }

/-- R57: the checksum of `PKT[0 .. PKLEN-1]`. -/
def execCkPkt (s : State) : Host.Outcome State Fault Refusal :=
  let c := s.ck.sumBuffer (s.em.pkt.slice s.em.pklen.toNat)
  guardCapacity s .pkt s.em.pklen.toNat (respond (c.csum.setWidth 32) { s with ck := c })

end Sys2Proof.Machine
end

