-- ==== Sys2Proof/Machine/EchoMessage.lean ====
section
/-! DEFINITION. The EM family: EM.NEW, EM.PAYB, EM.SER (R64 to R66). -/

namespace Sys2Proof.Machine

/-- R64: a new request with an empty payload; the bytes of `PAY` and the packet stay. -/
def execEmNew (ident : Half) (s : State) : Host.Outcome State Fault Refusal :=
  complete { s with em := { s.em with emid := ident, emseq := 0, emck := 0, plen := 0 } }

/-- R65: append one byte, unless the payload is full. -/
def execEmPayb (b : Byte) (s : State) : Host.Outcome State Fault Refusal :=
  let at' := s.em.plen.toNat
  if at' = s.cfg.payMax.val then raise .payloadFull s
  else guardCapacity s .pay (at' + 1)
    (complete { s with em := { s.em with pay := s.em.pay.write at' b, plen := s.em.plen + 1, emck := 0 } })

/-- R66, steps 2 and 3: type, code, six zero bytes, then the payload. -/
def unsummedPacket (e : EmUnit) : List Byte :=
  [emType, emCode, 0, 0, 0, 0, 0, 0] ++ e.pay.slice e.plen.toNat

/-- R66, step 4: the checksum big-endian at offsets 2 and 3. -/
def Memory.putChecksum (m : Memory) (c : Half) : Memory := (m.write 2 (hiByte c)).write 3 (loByte c)

/-- R66: serialize the stored message into `PKT`, its checksum computed on the checksum unit. -/
def execEmSer (s : State) : Host.Outcome State Fault Refusal :=
  let n := 8 + s.em.plen.toNat
  let pkt := s.em.pkt.writeFrom 0 (unsummedPacket s.em)
  let c := s.ck.sumBuffer (pkt.slice n)
  guardCapacity s .pay s.em.plen.toNat (guardCapacity s .pkt n
    (respond (c.csum.setWidth 32)
      { s with ck := c, em := { s.em with pkt := pkt.putChecksum c.csum, pklen := BitVec.ofNat 16 n, emck := c.csum } }))

end Sys2Proof.Machine
end

