-- ==== Sys2Proof/Machine/SubnetRange.lean ====
section
/-! DEFINITION. The NR family: NR.ADRH, NR.ADRL, NR.DERIVE, NR.NEXT (R72 to R74, R79). -/

namespace Sys2Proof.Machine

/-- R72. -/
def execNrAdrh (v : Half) (s : State) : Host.Outcome State Fault Refusal :=
  complete { s with nr := { s.nr with addr := withAddrHigh s.nr.addr v } }

/-- R73. -/
def execNrAdrl (v : Half) (s : State) : Host.Outcome State Fault Refusal :=
  complete { s with nr := { s.nr with addr := withAddrLow s.nr.addr v } }

/-- R74: no valid range; the rest of the NR unit stays. -/
def dropRange (s : State) : State := { s with nr := { s.nr with rvalid := false } }

/-- R74: the NR unit after a successful derivation with prefix length `p`. -/
def NrUnit.derived (n : NrUnit) (p : Byte) : NrUnit :=
  let rb := reservedBytes p
  let bits := reservedBits p
  let first := if rb = 4 then n.addr else withOctet n.addr 1
  let last := if rb = 4 then n.addr else withOctet n.addr (endOctet bits)
  { n with
    pfx := p, rbytes := rb, rbits := bits, startA := first, endA := last, cur := hostOctet first,
    rvalid := true, done := emptyRangeFlag first last }

/-- R74: validate, then derive. -/
def execNrDerive (p : Byte) (s : State) : Host.Outcome State Fault Refusal :=
  if 32 < p then raise .invalidPrefix (dropRange s)
  else if p < 24 then raise .subnetTooLarge (dropRange s)
  else complete { s with nr := s.nr.derived p }

/-- R79: the iterator after it has given an address. -/
def NrUnit.stepped (n : NrUnit) : NrUnit :=
  if n.cur = hostOctet n.endA then { n with done := true } else { n with cur := n.cur + 1 }

/-- R79: the next address of the sequence. -/
def execNrNext (s : State) : Host.Outcome State Fault Refusal :=
  if s.nr.rvalid = false then raise .noRange s
  else if s.nr.done = true then raise .rangeDone s
  else respond (withOctet s.nr.startA s.nr.cur) { s with nr := s.nr.stepped }

end Sys2Proof.Machine
end

