-- ==== Sys2Proof/Machine/SystemAccess.lean ====
section
/-! DEFINITION. The SYS and LD families: SYS.NOP, SYS.RD, SYS.CLRERR, SYS.RST, LD.PKT, LD.PAY (R83 to R88). -/

namespace Sys2Proof.Machine

/-- R83. -/
def execSysNop (s : State) : Host.Outcome State Fault Refusal := complete s

/-- R84. -/
def execSysRd (r : Byte) (s : State) : Host.Outcome State Fault Refusal :=
  match regOfIndex r with
  | none => raise .badAddress s
  | some x => respond (regValue s x) s

/-- R85. -/
def execSysClrerr (s : State) : Host.Outcome State Fault Refusal := complete { s with err := 0 }

/-- R86: the effect of the reset input, with a response. -/
def execSysRst (s : State) : Host.Outcome State Fault Refusal := complete (resetCore s)

/-- R32: a read of a byte memory inside its readable window `0 .. len - 1`. -/
def loadByte (sp : Space) (len : Half) (a : Half) (s : State) : Host.Outcome State Fault Refusal :=
  if len ≤ a then raise .badAddress s
  else guardCapacity s sp (a.toNat + 1) (respond ((s.byteAt sp a.toNat).setWidth 32) s)

/-- R87. -/
def execLdPkt (a : Half) (s : State) : Host.Outcome State Fault Refusal := loadByte .pkt s.em.pklen a s

/-- R88. -/
def execLdPay (a : Half) (s : State) : Host.Outcome State Fault Refusal := loadByte .pay s.em.plen a s

end Sys2Proof.Machine
end

