-- ==== Sys2Proof/Machine/Dispatch.lean ====
section
/-! DEFINITION. The meaning of each command (R41): one arm per constructor. -/

namespace Sys2Proof.Machine

def exec (i : Instr) (s : State) : Host.Outcome State Fault Refusal :=
  match i with
  | .sysNop => Sys2Proof.Machine.execSysNop s
  | .sysRd r => Sys2Proof.Machine.execSysRd r s
  | .sysClrerr => Sys2Proof.Machine.execSysClrerr s
  | .sysRst => Sys2Proof.Machine.execSysRst s
  | .ckClr => Sys2Proof.Machine.execCkClr s
  | .ckPutb b => Sys2Proof.Machine.execCkPutb b s
  | .ckPuth h => Sys2Proof.Machine.execCkPuth h s
  | .ckFin => Sys2Proof.Machine.execCkFin s
  | .ckPkt => Sys2Proof.Machine.execCkPkt s
  | .emNew ident => Sys2Proof.Machine.execEmNew ident s
  | .emPayb b => Sys2Proof.Machine.execEmPayb b s
  | .emSer => Sys2Proof.Machine.execEmSer s
  | .ldPkt a => Sys2Proof.Machine.execLdPkt a s
  | .ldPay a => Sys2Proof.Machine.execLdPay a s
  | .nrAdrh v => Sys2Proof.Machine.execNrAdrh v s
  | .nrAdrl v => Sys2Proof.Machine.execNrAdrl v s
  | .nrDerive p => Sys2Proof.Machine.execNrDerive p s
  | .nrNext => Sys2Proof.Machine.execNrNext s

end Sys2Proof.Machine
end

