-- ==== Sys2Proof/Machine/Step.lean ====
section
/-! DEFINITION. One step: the CORE answers the next input of the host (R4), and the host's position moves on (R16). -/

namespace Sys2Proof.Machine

/-- R3, R4, R48: one step. A command word is decoded and executed, an illegal word raises `IllegalCommand`, the reset input resets
(R101), and with no input the CORE waits (R102). -/
def step (s : State) : Host.Outcome State Fault Refusal :=
  match s.nextInput with
  | none => execWait s
  | some .resetInput => execResetInput s.advance
  | some (.command w) =>
    match decode w with
    | .command i => exec i s.advance
    | .illegal _ => execIllegal s.advance

/-- The state in which the host presents, next, the command word with the bits `w` of a table row. -/
def State.withFetchWord (s : State) (nbits w : Nat) : State := s.placeCommand (tableWord nbits w)

end Sys2Proof.Machine
end

