-- ==== Sys2Proof/Machine/HostRules.lean ====
section
/-! DEFINITION. What R100 expects of the host, for a model of host plus CORE to assume. The CORE enforces none of it: `step` and `exec` do
not read what stands here (log entry 12). -/

namespace Sys2Proof.Machine

/-- R4, R100: what happens on the host's side: it presents an input to the CORE, or its own socket fails. -/
inductive HostEvent where
  | presents (x : HostInput)
  | transportFailure
  deriving DecidableEq, Repr

/-- R100: what the CORE is told of an event: the input presented, nothing of a transport failure. -/
def HostEvent.input? : HostEvent → Option HostInput
  | .presents x => some x
  | .transportFailure => none

/-- R44, R48: the command an event presents, if it presents a legal word. -/
def HostEvent.instr? (e : HostEvent) : Option Instr :=
  match e.input? with
  | some (.command w) => decode? w
  | some .resetInput => none
  | none => none

/-- R74: the prefix length of a derivation. -/
def derivedPrefix? : Instr → Option Byte
  | .nrDerive p => some p
  | .sysNop | .sysRd _ | .sysClrerr | .sysRst | .ckClr | .ckPutb _ | .ckPuth _ | .ckFin | .ckPkt | .emNew _ | .emPayb _ | .emSer
  | .ldPkt _ | .ldPay _ | .nrAdrh _ | .nrAdrl _ | .nrNext => none

/-- R100: the CORE after an event. Of a transport failure it is not told: it only waits. -/
def deliver (e : HostEvent) (s : State) : Host.Outcome State Fault Refusal :=
  match e.input? with
  | some x => step (s.placeInput x)
  | none => execWait s

/-- The CORE after events one after another; what one of them stops at stops the rest. -/
def deliverAll : List HostEvent → State → Host.Outcome State Fault Refusal
  | [], s => .next s
  | e :: es, s =>
    match deliver e s with
    | .next t => deliverAll es t
    | .fault r => .fault r
    | .refused r => .refused r

/-- R100: what a host that keeps the rule remembers: the derivations that were refused, as address and prefix length, and whether the
present scan is given up. -/
structure HostView where
  refusedDerivations : List (Word × Byte)
  scanGivenUp : Bool
  deriving DecidableEq, Repr

/-- R100: the derivation refused with `InvalidPrefix` or `SubnetTooLarge` is not retried, and a scan given up gets no NR.NEXT. DESIGN CHOICE (log
entry 13): the same derivation is one with the same `ADDR` and prefix length. -/
def HostView.allows (v : HostView) (e : HostEvent) (s : State) : Bool :=
  match e.instr? with
  | none => true
  | some i =>
    (i != .nrNext || !v.scanGivenUp) &&
      match derivedPrefix? i with
      | some p => !v.refusedDerivations.contains (s.nr.addr, p)
      | none => true

/-- R100: what the host remembers after an event that took the CORE from `s` to `t`. A transport failure and a refused derivation give the
scan up; a derivation that succeeds starts another one. DESIGN CHOICE (log entry 13). -/
def HostView.after (v : HostView) (e : HostEvent) (s t : State) : HostView :=
  match e with
  | .transportFailure => { v with scanGivenUp := true }
  | .presents _ =>
    match e.instr?.bind derivedPrefix?, t.host.rsp with
    | some p, some r =>
      if r.code = 1 ∨ r.code = 2 then { refusedDerivations := (s.nr.addr, p) :: v.refusedDerivations, scanGivenUp := true }
      else { v with scanGivenUp := false }
    | _, _ => v

/-- R100: the host keeps the rule over the events, from the state `s` and what it remembers. -/
def hostKeepsR100 : HostView → List HostEvent → State → Bool
  | _, [], _ => true
  | v, e :: es, s =>
    v.allows e s &&
      match deliver e s with
      | .next t => hostKeepsR100 (v.after e s t) es t
      | .fault _ => true
      | .refused _ => true

/-- The events that put an iterator somewhere anew: a derivation, and reset in its two forms (R74, R101). -/
def HostEvent.placesIterator (e : HostEvent) : Bool :=
  e.input? = some .resetInput || e.instr? = some .sysRst || (e.instr?.bind derivedPrefix?).isSome

end Sys2Proof.Machine
end

