-- ==== Sys2Proof/Machine/Reference.lean ====
section
/-! DEFINITION. The pure functions in which the spec says what the commands compute: `word`, `wsum`, `checksum` (R11), `deriveRange` (R70),
`seq` (R78), and the folding sum of a receiver (R60), which this hardware does NOT compute. No command calls these; claims use them. -/

namespace Sys2Proof.Machine

/-- R11: the sum of a buffer as big-endian 16-bit words, a lone last byte padded with a zero low byte; unbounded. -/
def wsum : List Byte → Nat
  | [] => 0
  | [b] => b.toNat * 256
  | b :: c :: bs => b.toNat * 256 + c.toNat + wsum bs

/-- R11: `checksum(B) = 0xFFFF - (wsum(B) % 65536)`. -/
def checksum (bs : List Byte) : Half := BitVec.ofNat 16 (0xFFFF - wsum bs % 65536)

/-- R70: what `deriveRange` answers. -/
inductive RangeResult where
  | range (first last : Word)
  | fails (e : ErrorCode)
  deriving DecidableEq, Repr

/-- R70: the end octet of prefix length `p` in 24 to 31. -/
def lastOctet (p : Nat) : Nat := if p % 8 = 0 then 254 else 2 ^ (8 - p % 8) - 2

/-- R70: `deriveRange(a, p)`, in the arithmetic of natural numbers. -/
def deriveRange (a : Word) (p : Nat) : RangeResult :=
  if p > 32 then .fails .invalidPrefix
  else if p < 24 then .fails .subnetTooLarge
  else if p / 8 = 4 then .range a a
  else .range (withOctet a 1) (withOctet a (BitVec.ofNat 8 (lastOctet p)))

/-- R78: the address sequence of a range, empty when the start octet is above the end octet. -/
def addressSeq (first last : Word) : List Word :=
  (List.range' (hostOctet first).toNat ((hostOctet last).toNat + 1 - (hostOctet first).toNat)).map
    fun o => withOctet first (BitVec.ofNat 8 o)

/-- R60: add the bits above bit 15 back into the low 16 bits until none remain; `fuel` bounds the rounds. From general knowledge (G2),
PRESUMED: a receiver's sum, used only to say how this hardware differs from it. -/
def foldCarries : Nat → Nat → Nat
  | 0, n => n
  | fuel + 1, n => if n < 65536 then n else foldCarries fuel (n % 65536 + n / 65536)

/-- R60: the checksum of a receiver that folds carries. PRESUMED (G2), no behaviour of this hardware. -/
def foldedChecksum (bs : List Byte) : Half := BitVec.ofNat 16 (0xFFFF - foldCarries (wsum bs) (wsum bs))

end Sys2Proof.Machine
end

