-- ==== Sys2Proof/Safety.lean ====
section
/-! DEFINITION. What counts as a good state and a safe run, in the terms the statements use: the invariant of the machine, the stream
of the checksum unit (R51), what a host can observe (R32), and runs of one command. -/

namespace Sys2Proof.Machine

/-- R21, R51: the checksum unit represents the stream `bs` of bytes pushed since the last clear. -/
structure Streams (c : CkUnit) (bs : List Byte) : Prop where
  odd_iff : c.odd = decide (bs.length % 2 = 1)
  hold_eq : c.hold = if c.odd then bs.getLastD 0 else 0
  sum_eq : (c.acc.toNat + (if c.odd then c.hold.toNat * 256 else 0)) % 2 ^ 32 = wsum bs % 2 ^ 32

/-- R51: the bytes pushed since the last clear, after command `i` has been executed in state `s` with the stream `bs`. -/
def streamAfter (i : Instr) (s : State) (bs : List Byte) : List Byte :=
  match i with
  | .ckClr => []
  | .sysRst => []
  | .ckPutb b => bs ++ [b]
  | .ckPuth h => bs ++ [hiByte h, loByte h]
  | .ckPkt => s.em.pkt.slice s.em.pklen.toNat
  | .emSer => unsummedPacket s.em
  | .sysNop => bs
  | .sysRd _ => bs
  | .sysClrerr => bs
  | .ckFin => bs
  | .emNew _ => bs
  | .emPayb _ => bs
  | .ldPkt _ => bs
  | .ldPay _ => bs
  | .nrAdrh _ => bs
  | .nrAdrl _ => bs
  | .nrDerive _ => bs
  | .nrNext => bs

/-- The payload of the stored message, `PAY[0 .. PLEN-1]` (R22). -/
def EmUnit.payload (e : EmUnit) : List Byte := e.pay.slice e.plen.toNat

/-- The serialized packet, `PKT[0 .. PKLEN-1]` (R61). -/
def EmUnit.packet (e : EmUnit) : List Byte := e.pkt.slice e.pklen.toNat

/-- R39: the layout of the packet of a payload with checksum `c`. -/
def packetOf (c : Half) (payload : List Byte) : List Byte :=
  [8, 0, hiByte c, loByte c, 0, 0, 0, 0] ++ payload

/-- The checksum unit is in a state the spec allows (R13, R17). -/
structure CkUnit.Good (c : CkUnit) : Prop where
  /-- R13: `HOLD` is 0 when `ODD` is 0 -/
  hold_even : c.odd = false → c.hold = 0
  /-- R17: `Z` is 1 only with `CSUM` = 0 (both are 0 after reset) -/
  z_zero : c.z = true → c.csum = 0

/-- The message and packet are in a state the spec allows, for a payload capacity (R13, R22, R31, R39). -/
structure EmUnit.Good (payMax : Nat) (e : EmUnit) : Prop where
  /-- R13: `0 <= PLEN <= PAY_MAX` -/
  plen_le : e.plen.toNat ≤ payMax
  /-- R22: `EMSEQ` is 0 at all times -/
  emseq_zero : e.emseq = 0
  /-- R13: `PKLEN` is 0, or 8 plus a payload length -/
  pklen_shape : e.pklen = 0 ∨ (8 ≤ e.pklen.toNat ∧ e.pklen.toNat ≤ payMax + 8)
  /-- the memories keep their canonical form -/
  pay_wf : e.pay.wf = true
  pkt_wf : e.pkt.wf = true
  /-- R31, R32: nothing is written at or beyond a capacity -/
  pay_inside : ∀ a, payMax ≤ a → e.pay.read a = unwritten
  pkt_inside : ∀ a, payMax + 8 ≤ a → e.pkt.read a = unwritten
  /-- R39, R59, R67: a packet has its header, four zero bytes and a checksum that verifies -/
  packet_shape : e.pklen ≠ 0 →
    (∃ c payload, e.packet = packetOf c payload) ∧ checksum e.packet = 0
  /-- R66, R107: `EMCK` not 0 says that the packet is the serialization of the present message -/
  emck_current : e.emck ≠ 0 → e.packet = packetOf e.emck e.payload

/-- The range and its iterator are in a state the spec allows (R13, R24, R71, R79). -/
structure NrUnit.Good (n : NrUnit) : Prop where
  /-- R74: `RBYTES` and `RBITS` are the two parts of `PREFIX` -/
  pfx_parts : n.pfx.toNat = n.rbytes.toNat * 8 + n.rbits.toNat
  /-- R13: no derivation has succeeded since reset, or the prefix length is a valid one -/
  pfx_range : n.pfx = 0 ∨ (24 ≤ n.pfx.toNat ∧ n.pfx.toNat ≤ 32)
  /-- R13: a valid range comes from a successful derivation -/
  valid_derived : n.rvalid = true → n.pfx ≠ 0
  /-- R24: `START` and `END` are those of the last successful derivation -/
  range_derived : n.pfx ≠ 0 → ∃ a, deriveRange a n.pfx.toNat = .range n.startA n.endA
  /-- R28: before any derivation they are 0 -/
  range_reset : n.pfx = 0 → n.startA = 0 ∧ n.endA = 0
  /-- R79: an iterator that is not done stands inside the range -/
  cur_inside : n.done = false → (hostOctet n.startA).toNat ≤ n.cur.toNat ∧ n.cur.toNat ≤ (hostOctet n.endA).toNat
  /-- R17, R79: a done iterator stands at the last octet, or at the start of an empty range -/
  cur_done : n.done = true → n.cur = hostOctet n.endA ∨
    (n.cur = hostOctet n.startA ∧ (hostOctet n.endA).toNat < (hostOctet n.startA).toNat)

/-- The invariant of the machine: what holds after reset and what every step keeps. -/
structure State.Inv (s : State) : Prop where
  ck_good : s.ck.Good
  em_good : s.em.Good s.cfg.payMax.val
  nr_good : s.nr.Good
  /-- R19: legal values of `ERR` are 0 to 7 -/
  err_legal : s.err.toNat ≤ 7

/-- R32, R103: two states that a host cannot tell apart: they agree on everything but the bytes of `PAY` and `PKT` outside the readable
windows. -/
structure Indistinguishable (s t : State) : Prop where
  cfg_eq : t.cfg = s.cfg
  ck_eq : t.ck = s.ck
  nr_eq : t.nr = s.nr
  err_eq : t.err = s.err
  host_eq : t.host = s.host
  em_eq : { t.em with pay := [], pkt := [] } = { s.em with pay := [], pkt := [] }
  payload_eq : ∀ a, a < s.em.plen.toNat → t.byteAt .pay a = s.byteAt .pay a
  packet_eq : ∀ a, a < s.em.pklen.toNat → t.byteAt .pkt a = s.byteAt .pkt a

/-- A command answers a next state with the response `(code, val)`. -/
def Answers (i : Instr) (s t : State) (code : Byte) (val : Word) : Prop :=
  exec i s = .next t ∧ t.host.rsp = some { code := code, val := val }

/-- The frame of the host's side: the command changed nothing of it but the response. -/
def HostKept (s t : State) : Prop := t.host.program = s.host.program ∧ t.host.pc = s.host.pc

/-- Every byte of both memories reads as before. -/
def BytesKept (s t : State) : Prop := ∀ sp a, t.byteAt sp a = s.byteAt sp a

/-! ### Frames -/

/-- Nothing of the CORE changed. -/
def Unchanged (s t : State) : Prop :=
  t.cfg = s.cfg ∧ t.ck = s.ck ∧ t.em = s.em ∧ t.nr = s.nr ∧ t.err = s.err ∧ HostKept s t ∧ BytesKept s t

/-- Nothing of the CORE changed but `ERR`. -/
def OnlyErr (s t : State) : Prop :=
  t.cfg = s.cfg ∧ t.ck = s.ck ∧ t.em = s.em ∧ t.nr = s.nr ∧ HostKept s t ∧ BytesKept s t

/-- Nothing of the CORE changed but registers of the checksum unit. -/
def OnlyCk (s t : State) : Prop :=
  t.cfg = s.cfg ∧ t.em = s.em ∧ t.nr = s.nr ∧ t.err = s.err ∧ HostKept s t ∧ BytesKept s t

/-- Nothing of the CORE changed but the message and the packet. -/
def OnlyEm (s t : State) : Prop :=
  t.cfg = s.cfg ∧ t.ck = s.ck ∧ t.nr = s.nr ∧ t.err = s.err ∧ HostKept s t

/-- Nothing of the CORE changed but registers of the range unit. -/
def OnlyNr (s t : State) : Prop :=
  t.cfg = s.cfg ∧ t.ck = s.ck ∧ t.em = s.em ∧ t.err = s.err ∧ HostKept s t ∧ BytesKept s t

/-! ### Which command writes which state (R30) -/

/-- R13: the registers and flags that hold state (`EMTYPE`, `EMCODE`, `STATUS`, `CAP` hold none). -/
inductive Piece where
  | acc | hold | odd | csum | z | emck | emid | emseq | plen | pklen
  | addr | pfx | rbytes | rbits | startA | endA | cur | rvalid | done | err
  deriving DecidableEq, Repr

/-- A register or flag has the same value in both states. -/
def Piece.same (x : Piece) (s t : State) : Prop :=
  match x with
  | .acc => t.ck.acc = s.ck.acc
  | .hold => t.ck.hold = s.ck.hold
  | .odd => t.ck.odd = s.ck.odd
  | .csum => t.ck.csum = s.ck.csum
  | .z => t.ck.z = s.ck.z
  | .emck => t.em.emck = s.em.emck
  | .emid => t.em.emid = s.em.emid
  | .emseq => t.em.emseq = s.em.emseq
  | .plen => t.em.plen = s.em.plen
  | .pklen => t.em.pklen = s.em.pklen
  | .addr => t.nr.addr = s.nr.addr
  | .pfx => t.nr.pfx = s.nr.pfx
  | .rbytes => t.nr.rbytes = s.nr.rbytes
  | .rbits => t.nr.rbits = s.nr.rbits
  | .startA => t.nr.startA = s.nr.startA
  | .endA => t.nr.endA = s.nr.endA
  | .cur => t.nr.cur = s.nr.cur
  | .rvalid => t.nr.rvalid = s.nr.rvalid
  | .done => t.nr.done = s.nr.done
  | .err => t.err = s.err

/-- R30, second column: the registers and flags a command writes on success. -/
def writesOnSuccess : Instr → List Piece
  | .ckClr => [.acc, .hold, .odd]
  | .ckPutb _ => [.acc, .hold, .odd]
  | .ckPuth _ => [.acc, .hold]
  | .ckFin => [.csum, .z]
  | .ckPkt => [.acc, .hold, .odd, .csum, .z]
  | .emNew _ => [.emid, .emseq, .emck, .plen]
  | .emPayb _ => [.plen, .emck]
  | .emSer => [.pklen, .emck, .acc, .hold, .odd, .csum, .z]
  | .nrAdrh _ => [.addr]
  | .nrAdrl _ => [.addr]
  | .nrDerive _ => [.pfx, .rbytes, .rbits, .startA, .endA, .cur, .rvalid, .done]
  | .nrNext => [.cur, .done]
  | .sysNop => []
  | .sysRd _ => []
  | .sysClrerr => [.err]
  | .sysRst =>
    [.acc, .hold, .odd, .csum, .z, .emck, .emid, .emseq, .plen, .pklen,
     .addr, .pfx, .rbytes, .rbits, .startA, .endA, .cur, .rvalid, .done, .err]
  | .ldPkt _ => []
  | .ldPay _ => []

/-- R30, third column: the registers and flags a failing command writes. -/
def writesOnFailure : Instr → List Piece
  | .nrDerive _ => [.err, .rvalid]
  | .emPayb _ | .nrNext | .sysRd _ | .ldPkt _ | .ldPay _ => [.err]
  | .sysNop | .sysClrerr | .sysRst | .ckClr | .ckPutb _ | .ckPuth _ | .ckFin | .ckPkt
  | .emNew _ | .emSer | .nrAdrh _ | .nrAdrl _ => []

/-- R30: the bytes a command writes on success, by space and address. -/
def writesByte (i : Instr) (s : State) (sp : Space) (a : Nat) : Prop :=
  match i with
  | .emPayb _ => sp = .pay ∧ a = s.em.plen.toNat
  | .emSer => sp = .pkt ∧ a < 8 + s.em.plen.toNat
  | .sysRst => True
  | .sysNop | .sysRd _ | .sysClrerr | .ckClr | .ckPutb _ | .ckPuth _ | .ckFin | .ckPkt
  | .emNew _ | .ldPkt _ | .ldPay _ | .nrAdrh _ | .nrAdrl _ | .nrDerive _ | .nrNext => False

/-- A flag as the number 0 or 1. -/
def bitNat (b : Bool) : Nat := if b then 1 else 0

/-- R18: the value of `STATUS`, field by field. -/
def statusNat (s : State) : Nat :=
  bitNat s.ck.odd + 2 * bitNat s.ck.z + 4 * bitNat s.nr.rvalid + 8 * bitNat s.nr.done + 16 * (if s.err = 0 then 0 else 1)

/-- R14: the number and the value of every register. -/
def registerValues (s : State) : List (Nat × Nat) :=
  [(0, statusNat s), (1, s.err.toNat), (2, s.ck.acc.toNat), (3, s.ck.hold.toNat), (4, s.ck.csum.toNat), (5, 8), (6, 0),
   (7, s.em.emck.toNat), (8, s.em.emid.toNat), (9, s.em.emseq.toNat), (10, s.em.plen.toNat), (11, s.em.pklen.toNat),
   (12, s.nr.addr.toNat), (13, s.nr.pfx.toNat), (14, s.nr.rbytes.toNat), (15, s.nr.rbits.toNat), (16, s.nr.startA.toNat),
   (17, s.nr.endA.toNat), (18, s.nr.cur.toNat), (19, s.cfg.payMax.val)]

/-! ### Runs -/

/-- R105: the host repeats NR.NEXT until the response code is not 0, at most `fuel` times: the addresses it was given, and the state in
which it stands. -/
def sweep : Nat → State → List Word × State
  | 0, s => ([], s)
  | fuel + 1, s =>
    match exec .nrNext s with
    | .next t =>
      match t.host.rsp with
      | some r => if r.code = 0 then ((r.val :: (sweep fuel t).1), (sweep fuel t).2) else ([], t)
      | none => ([], t)
    | .fault _ => ([], s)
    | .refused _ => ([], s)

/-- Commands executed one after another, as the host issues them; what one of them stops at stops the rest. -/
def execList : List Instr → State → Host.Outcome State Fault Refusal
  | [], s => .next s
  | i :: is, s =>
    match exec i s with
    | .next t => execList is t
    | .fault r => .fault r
    | .refused r => .refused r

end Sys2Proof.Machine
end

