-- ==== Sys2Proof/Certificates/Slice0/Obligations.lean ====
section
/-! DEFINITION. The statements about the machine, each made from the numbered rules its docstring cites. -/

open Sys2Proof Sys2Proof.Machine

/-! ### Encoding and decoding -/

/-- R41, R42, R43, R48: decoding the word of a command gives the command back, with every operand at every value. -/
def Obligations.DecodeOfEncode : Prop := ∀ i : Instr, decode (encode i) = .command i

/-- R40, R42, R44: a legal word is the word of the command it decodes to, so no legal word has two spellings and no bit is dropped. -/
def Obligations.EncodeOfDecode : Prop := ∀ (w : Word) (i : Instr), decode w = .command i → encode i = w

/-- R44: a word is legal exactly when it matches a row of the table, and the row is its command's; the rows are disjoint; the illegal words
are those of the two kinds (a) and (b); executing one answers `(3, 0)` and changes nothing but `ERR`; the words the rule names. -/
def Obligations.LegalWordsAreTheTableRows : Prop :=
  (∀ w : Word, (∃ i, decode w = .command i) ↔ ∃ row ∈ opcodeTable, row.matchesWord w) ∧
  (∀ (w : Word) (i : Instr), decode w = .command i → ∃ row ∈ opcodeTable, row.mnemonic = i.mnemonic ∧ row.matchesWord w) ∧
  (∀ w : Word, ∀ r ∈ opcodeTable, ∀ r' ∈ opcodeTable, r.matchesWord w → r'.matchesWord w → r = r') ∧
  (∀ w : Word, decode w = .illegal .undefinedOpcode ↔
    let op := w.toNat / 2 ^ 24
    (0x04 ≤ op ∧ op ≤ 0x0F) ∨ (0x15 ≤ op ∧ op ≤ 0x1F) ∨ (0x23 ≤ op ∧ op ≤ 0x2F) ∨ (0x32 ≤ op ∧ op ≤ 0x3F) ∨
      (0x44 ≤ op ∧ op ≤ 0xFF)) ∧
  (∀ w : Word, decode w = .illegal .reservedBit ↔
    decode w ≠ .illegal .undefinedOpcode ∧ ∀ row ∈ opcodeTable, ¬ row.matchesWord w) ∧
  (decode 0x11000100 = .illegal .reservedBit ∧ decode 0x13000001 = .illegal .reservedBit ∧
    decode 0x00000000 = .command .sysNop ∧ decode 0xFFFFFFFF = .illegal .undefinedOpcode) ∧
  (∀ (s : State) (w : Word) (why : IllegalWord), s.nextInput = some (.command w) → decode w = .illegal why →
    ∃ t, step s = .next t ∧ t.host.rsp = some { code := 3, val := 0 } ∧ t.err = 3 ∧ OnlyErr s.advance t)

/-- Words written out from R41 (and the vectors V-ENC of 95_test_vectors.md), one or more of each family. -/
def Obligations.WrittenOutWordsDecode : Prop :=
  decode 0x01130000 = .command (.sysRd 19) ∧ decode 0x03000000 = .command .sysRst ∧
  decode 0x110000AB = .command (.ckPutb 0xAB) ∧ decode 0x1200ABCD = .command (.ckPuth 0xABCD) ∧
  decode 0x2000FFFF = .command (.emNew 0xFFFF) ∧ decode 0x21000061 = .command (.emPayb 0x61) ∧
  decode 0x3000FFFF = .command (.ldPkt 0xFFFF) ∧ decode 0x31000002 = .command (.ldPay 2) ∧
  decode 0x4000C0A8 = .command (.nrAdrh 0xC0A8) ∧ decode 0x42FF0000 = .command (.nrDerive 255) ∧
  decode 0x110100AB = .illegal .reservedBit ∧ decode 0x42180001 = .illegal .reservedBit

/-- R49: the assembler accepts a core line exactly when the operand is there as the format says and fits its field; what it gives is the
command of that mnemonic and operand, and its word decodes to it (no reserved bit is set); every command has such a line. -/
def Obligations.AssemblerAcceptsWhatFits : Prop :=
  (∀ l : AsmLine, (∃ i, l.assemble = .commands [i]) ↔ l.wellFormed = true) ∧
  (∀ (l : AsmLine) (i : Instr), l.assemble = .commands [i] →
    i.mnemonic = l.mnemonic ∧ i.operand = l.operand ∧ decode (encode i) = .command i) ∧
  (∀ i : Instr, i.toAsm.assemble = .commands [i])

/-- R50: the expansions of the six pseudo-commands, for all byte operands. -/
def Obligations.PseudoCommandExpansions : Prop :=
  (∀ bs : List Byte, bs ≠ [] → (Pseudo.ckBytes (bs.map (·.toNat))).assemble = .commands (bs.map .ckPutb)) ∧
  (∀ bs : List Byte, (Pseudo.ckSum (bs.map (·.toNat))).assemble = .commands (.ckClr :: (bs.map .ckPutb ++ [.ckFin]))) ∧
  (∀ bs : List Byte, bs ≠ [] → (Pseudo.emPayload (bs.map (·.toNat))).assemble = .commands (bs.map .emPayb)) ∧
  (∀ (v : Half) (bs : List Byte),
    (Pseudo.emReq v.toNat (bs.map (·.toNat))).assemble = .commands (.emNew v :: bs.map .emPayb)) ∧
  (∀ a b c d : Byte, (Pseudo.nrAddr a.toNat b.toNat c.toNat d.toNat).assemble =
    .commands [.nrAdrh (a ++ b), .nrAdrl (c ++ d)]) ∧
  (∀ a b c d p : Byte, (Pseudo.nrRange a.toNat b.toNat c.toNat d.toNat p.toNat).assemble =
    .commands [.nrAdrh (a ++ b), .nrAdrl (c ++ d), .nrDerive p])

/-! ### The step -/

/-- R4, R16, R48: when the host's next input is a word that decodes to a command, the step is that command's execution, with the host's
position moved on by one and nothing else around it. -/
def Obligations.StepExecutesTheDecodedCommand : Prop :=
  ∀ (s : State) (w : Word) (i : Instr), s.host.program[s.host.pc]? = some (.command w) → decode w = .command i →
    step s = exec i { s with host := { s.host with pc := s.host.pc + 1 } }

/-- R101: the reset input and SYS.RST have the same effect on the CORE; the input produces no response, SYS.RST produces `(0, 0)`.
The bytes of `PAY` and `PKT` are left out: they are unspecified after reset (R103). `HostKept s.advance t` is the model's choice of log
entry 2, no rule of the spec: the reset input is an item of the host's sequence, and the position moves on past it. -/
def Obligations.ResetInputAndResetCommandAgree : Prop :=
  ∀ s : State, s.nextInput = some .resetInput →
    ∃ t u, step s = .next t ∧ t.host.rsp = none ∧ HostKept s.advance t ∧
      Answers .sysRst s.advance u 0 0 ∧
      t.cfg = u.cfg ∧ t.ck = u.ck ∧ t.nr = u.nr ∧ t.err = u.err ∧
      { t.em with pay := [], pkt := [] } = { u.em with pay := [], pkt := [] }

/-- R102, R105, and the model's choice of log entry 4: with nothing presented the CORE waits; the step changes nothing and puts out no
response. -/
def Obligations.CoreWaitsWithoutInput : Prop :=
  ∀ s : State, s.nextInput = none → ∃ t, step s = .next t ∧ Unchanged s t ∧ t.host.rsp = none

/-- R16: the position moves on by one after every command whatever the response; no command writes it, reads it or depends on it. That the
first clause holds of the reset input too is the model's choice of log entry 2, no rule of the spec: R16 speaks of commands only. -/
def Obligations.PositionAdvancesAndIsNeverRead : Prop :=
  (∀ (s t : State) (x : HostInput), s.nextInput = some x → step s = .next t →
    t.host.pc = s.host.pc + 1 ∧ t.host.program = s.host.program) ∧
  (∀ (i : Instr) (s t : State), exec i s = .next t → HostKept s t) ∧
  (∀ (i : Instr) (s t : State) (prog : List HostInput) (n : Nat), exec i s = .next t →
    exec i { s with host := { s.host with program := prog, pc := n } } =
      .next { t with host := { t.host with program := prog, pc := n } })

/-- R28: what reset leaves, register by register and flag by flag, for every configuration. -/
def Obligations.ResetLeavesTheListedValues : Prop :=
  ∀ cfg : Config.Params,
    let s := State.resetWith cfg
    s.ck.acc = 0x00000000 ∧ s.ck.hold = 0x00 ∧ s.ck.odd = false ∧ s.ck.csum = 0x0000 ∧ s.ck.z = false ∧
    regValue s .emtype = 0x08 ∧ regValue s .emcode = 0x00 ∧
    s.em.emck = 0x0000 ∧ s.em.emid = 0x0000 ∧ s.em.emseq = 0x0000 ∧ s.em.plen = 0 ∧ s.em.pklen = 0 ∧
    s.nr.addr = 0x00000000 ∧ s.nr.pfx = 0x00 ∧ s.nr.rbytes = 0 ∧ s.nr.rbits = 0 ∧
    s.nr.startA = 0x00000000 ∧ s.nr.endA = 0x00000000 ∧ s.nr.cur = 0x00 ∧ s.nr.rvalid = false ∧ s.nr.done = false ∧
    s.err = 0x00 ∧ regValue s .status = 0x00000000 ∧ regValue s .cap = BitVec.ofNat 32 cfg.payMax.val

/-- The invariant of the machine holds after reset, for every configuration. -/
def Obligations.ResetMeetsTheMachineInvariant : Prop := ∀ cfg : Config.Params, (State.resetWith cfg).Inv

/-- R13, R17, R19, R22, R24, R32, R39, R59, R74, R79, R107: every step keeps the invariant of the machine: legal registers, canonical
memories inside their capacity, a packet that always verifies, `EMCK` as the mark of a current packet, an iterator inside its range. -/
def Obligations.EveryStepKeepsTheMachineInvariant : Prop := ∀ s t : State, s.Inv → step s = .next t → t.Inv

/-- R12(e), R32, R89: the CORE never stops: from a state that meets the invariant every step answers a next state. -/
def Obligations.NothingStopsTheCore : Prop := ∀ s : State, s.Inv → ∃ t, step s = .next t

/-! ### Errors -/

/-- R92: a command that raises keeps every register, flag and byte but `ERR`, and but `RVALID` for NR.DERIVE; the response is
`(code, 0)`. -/
def Obligations.RaiseChangesNothingElse : Prop :=
  ∀ (i : Instr) (s t : State) (r : Response), exec i s = .next t → t.host.rsp = some r → r.code ≠ 0 →
    r.val = 0 ∧ t.err = r.code ∧
    ((∃ p, i = .nrDerive p ∧ t = { s with nr := { s.nr with rvalid := false }, err := r.code, host := { s.host with rsp := some r } }) ∨
     ((∀ p, i ≠ .nrDerive p) ∧ t = { s with err := r.code, host := { s.host with rsp := some r } }))

/-- R96: `ERR` keeps the code of the most recent failing command until another command fails, SYS.CLRERR, or reset; a command that
succeeds does not clear it. -/
def Obligations.ErrorRecordIsSticky : Prop :=
  (∀ (s t : State) (w : Word), s.nextInput = some (.command w) → step s = .next t →
    ∃ r, t.host.rsp = some r ∧
      (r.code ≠ 0 → t.err = r.code) ∧
      (r.code = 0 → decode w ≠ .command .sysClrerr → decode w ≠ .command .sysRst → t.err = s.err) ∧
      (decode w = .command .sysClrerr ∨ decode w = .command .sysRst → t.err = 0)) ∧
  (∀ s t : State, s.nextInput = some .resetInput → step s = .next t → t.err = 0) ∧
  (∀ s t : State, s.nextInput = none → step s = .next t → t.err = s.err)

/-- R47, R90: every command word, legal or not, is answered by one response, with a code from 0 to 7 and value 0 when the code is not 0. -/
def Obligations.EveryWordGetsOneResponse : Prop :=
  ∀ (s t : State) (w : Word), s.nextInput = some (.command w) → step s = .next t →
    ∃ r, t.host.rsp = some r ∧ r.code.toNat ≤ 7 ∧ (r.code ≠ 0 → r.val = 0)

/-- R90: each error code is raised exactly by the commands and for the causes of the table, and what is recorded. -/
def Obligations.ErrorCodesHaveTheirCauses : Prop :=
  (∀ (i : Instr) (s t : State) (r : Response), exec i s = .next t → t.host.rsp = some r →
    (r.code = 1 ↔ ∃ p, i = .nrDerive p ∧ 32 < p.toNat) ∧
    (r.code = 2 ↔ ∃ p, i = .nrDerive p ∧ p.toNat < 24) ∧
    r.code ≠ 3 ∧
    (r.code = 4 ↔ ∃ b, i = .emPayb b ∧ s.em.plen.toNat = s.cfg.payMax.val) ∧
    (r.code = 5 ↔ (∃ x, i = .sysRd x ∧ 19 < x.toNat) ∨ (∃ a, i = .ldPkt a ∧ s.em.pklen.toNat ≤ a.toNat) ∨
      (∃ a, i = .ldPay a ∧ s.em.plen.toNat ≤ a.toNat)) ∧
    (r.code = 6 ↔ i = .nrNext ∧ s.nr.rvalid = false) ∧
    (r.code = 7 ↔ i = .nrNext ∧ s.nr.rvalid = true ∧ s.nr.done = true) ∧
    r.code.toNat ≤ 7 ∧
    (r.code ≠ 0 → t.err = r.code) ∧
    (r.code = 1 ∨ r.code = 2 → t.nr.rvalid = false)) ∧
  (∀ (s t : State) (w : Word), s.nextInput = some (.command w) → step s = .next t →
    ((∃ r, t.host.rsp = some r ∧ r.code = 3) ↔ ∃ why, decode w = .illegal why) ∧
    (∀ why, decode w = .illegal why → t.err = 3))

/-- R91: the twelve commands that, once decoded, always answer with code 0. -/
def Obligations.TwelveCommandsCannotFail : Prop :=
  ∀ s : State, s.Inv → ∀ i : Instr,
    (i = .sysNop ∨ i = .sysClrerr ∨ i = .sysRst ∨ i = .ckClr ∨ (∃ b, i = .ckPutb b) ∨ (∃ h, i = .ckPuth h) ∨ i = .ckFin ∨
      i = .ckPkt ∨ (∃ v, i = .emNew v) ∨ i = .emSer ∨ (∃ v, i = .nrAdrh v) ∨ (∃ v, i = .nrAdrl v)) →
    ∃ t v, Answers i s t 0 v

/-- R30: which command writes which state, on success and on failure; everything else reads as before, every byte of memory too. -/
def Obligations.WritesByCommand : Prop :=
  ∀ (i : Instr) (s t : State) (r : Response), exec i s = .next t → t.host.rsp = some r →
    t.cfg = s.cfg ∧ HostKept s t ∧
    (r.code = 0 → (∀ x : Piece, x ∉ writesOnSuccess i → x.same s t) ∧
      (∀ sp a, ¬ writesByte i s sp a → t.byteAt sp a = s.byteAt sp a)) ∧
    (r.code ≠ 0 → (∀ x : Piece, x ∉ writesOnFailure i → x.same s t) ∧ BytesKept s t)

/-! ### SYS and LD -/

/-- R83, R85: SYS.NOP changes nothing, SYS.CLRERR writes `ERR` to 0 and nothing else. -/
def Obligations.NopAndClrerr : Prop :=
  ∀ s : State,
    (∃ t, Answers .sysNop s t 0 0 ∧ Unchanged s t) ∧
    (∃ t, Answers .sysClrerr s t 0 0 ∧ t.err = 0 ∧ OnlyErr s t)

/-- R84: SYS.RD answers the zero-extended value of registers 0 to 19 and changes nothing; above 19 it raises `BadAddress`. -/
def Obligations.SysRdReadsTheNumberedRegister : Prop :=
  ∀ (r : Byte) (s : State),
    (19 < r.toNat → ∃ t, Answers (.sysRd r) s t 5 0 ∧ t.err = 5 ∧ OnlyErr s t) ∧
    (∀ v, (r.toNat, v) ∈ registerValues s → v < 2 ^ 32 ∧ ∃ t, Answers (.sysRd r) s t 0 (BitVec.ofNat 32 v) ∧ Unchanged s t) ∧
    (r.toNat ≤ 19 → ∃ v, (r.toNat, v) ∈ registerValues s)

/-- R18: the bits of `STATUS`, in every state, and its reset value. -/
def Obligations.StatusShowsTheFiveFlags : Prop :=
  (∀ s : State, (statusView s).getLsbD 0 = s.ck.odd ∧ (statusView s).getLsbD 1 = s.ck.z ∧
    (statusView s).getLsbD 2 = s.nr.rvalid ∧ (statusView s).getLsbD 3 = s.nr.done ∧
    (statusView s).getLsbD 4 = decide (s.err ≠ 0) ∧ ∀ k, 5 ≤ k → (statusView s).getLsbD k = false) ∧
  (∀ cfg : Config.Params, statusView (State.resetWith cfg) = 0)

/-- R86: SYS.RST puts every register and flag at its reset value and answers `(0, 0)`; nothing is said of the bytes of `PAY` and `PKT`,
which are unspecified after reset (R103). -/
def Obligations.SysRstResetsEveryRegister : Prop :=
  ∀ s : State, ∃ t, Answers .sysRst s t 0 0 ∧ t.cfg = s.cfg ∧ HostKept s t ∧
    (∀ x : Piece, x.same (State.resetWith s.cfg) t) ∧
    (∀ a, ∃ u, Answers (.ldPkt a) t u 5 0) ∧ (∀ a, ∃ u, Answers (.ldPay a) t u 5 0)

/-- R87, R88: LD.PKT and LD.PAY answer the byte inside the window and change nothing; at or beyond `PKLEN`, `PLEN` they raise
`BadAddress`. The capacity premises hold under the invariant. -/
def Obligations.WindowedLoads : Prop :=
  ∀ (a : Half) (s : State),
    (s.em.pklen.toNat ≤ a.toNat → ∃ t, Answers (.ldPkt a) s t 5 0 ∧ t.err = 5 ∧ OnlyErr s t) ∧
    (a.toNat < s.em.pklen.toNat → s.em.pklen.toNat ≤ s.cfg.payMax.val + 8 →
      ∃ t, Answers (.ldPkt a) s t 0 ((s.byteAt .pkt a.toNat).setWidth 32) ∧ Unchanged s t) ∧
    (s.em.plen.toNat ≤ a.toNat → ∃ t, Answers (.ldPay a) s t 5 0 ∧ t.err = 5 ∧ OnlyErr s t) ∧
    (a.toNat < s.em.plen.toNat → s.em.plen.toNat ≤ s.cfg.payMax.val →
      ∃ t, Answers (.ldPay a) s t 0 ((s.byteAt .pay a.toNat).setWidth 32) ∧ Unchanged s t)

/-- R20: `CAP` reads `PAY_MAX` in every state, and no step changes it. -/
def Obligations.CapacityIsConstant : Prop :=
  (∀ s : State, ∃ t, Answers (.sysRd 19) s t 0 (BitVec.ofNat 32 s.cfg.payMax.val) ∧ Unchanged s t) ∧
  (∀ s t : State, step s = .next t → t.cfg = s.cfg)

/-- R32, R103: the bytes outside the readable windows can never reach a response: two states that agree on everything else step to states
that agree on everything else, with the same response, and neither stops. -/
def Obligations.BytesOutsideTheWindowsAreUnobservable : Prop :=
  ∀ s s' t : State, s.Inv → s'.Inv → Indistinguishable s s' → step s = .next t →
    ∃ t', step s' = .next t' ∧ Indistinguishable t t'

/-! ### The checksum unit -/

/-- R51: after every command the checksum unit represents the bytes pushed since the last clear. -/
def Obligations.EveryCommandKeepsTheStream : Prop :=
  Streams CkUnit.reset [] ∧
  ∀ (i : Instr) (s t : State) (bs : List Byte), s.em.pkt.wf = true → Streams s.ck bs → exec i s = .next t →
    Streams t.ck (streamAfter i s bs)

/-- R52: finalisation of a stream yields its checksum, for a stream of any length; CK commands write only the checksum unit. -/
def Obligations.FinalisationGivesTheStreamsChecksum : Prop :=
  (∀ (s : State) (bs : List Byte), Streams s.ck bs →
    ∃ t, Answers .ckFin s t 0 ((checksum bs).setWidth 32) ∧ t.ck.csum = checksum bs ∧
      t.ck.csum.toNat = 0xFFFF - wsum bs % 65536) ∧
  (∀ (i : Instr) (s t : State),
    (i = .ckClr ∨ (∃ b, i = .ckPutb b) ∨ (∃ h, i = .ckPuth h) ∨ i = .ckFin ∨ i = .ckPkt) → exec i s = .next t → OnlyCk s t)

/-- R58: `ACC` is the exact sum of the completed words for every stream of at most 131074 bytes. -/
def Obligations.AccumulatorIsExactUpTo131074Bytes : Prop :=
  ∀ (c : CkUnit) (bs : List Byte), bs.length ≤ 131074 →
    (c.clear.pushBytes bs).acc.toNat = wsum (bs.take (2 * (bs.length / 2)))

/-- R53: CK.CLR. -/
def Obligations.CkClrStartsANewStream : Prop :=
  ∀ s : State, ∃ t, Answers .ckClr s t 0 0 ∧ OnlyCk s t ∧
    t.ck.acc = 0 ∧ t.ck.hold = 0 ∧ t.ck.odd = false ∧ t.ck.csum = s.ck.csum ∧ t.ck.z = s.ck.z

/-- R54: CK.PUTB, at an even and at an odd index. -/
def Obligations.CkPutbPushesOneByte : Prop :=
  ∀ (b : Byte) (s : State), ∃ t, Answers (.ckPutb b) s t 0 0 ∧ OnlyCk s t ∧ t.ck.csum = s.ck.csum ∧ t.ck.z = s.ck.z ∧
    (s.ck.odd = false → t.ck.hold = b ∧ t.ck.odd = true ∧ t.ck.acc = s.ck.acc) ∧
    (s.ck.odd = true → t.ck.acc.toNat = (s.ck.acc.toNat + (s.ck.hold.toNat * 256 + b.toNat)) % 2 ^ 32 ∧
      t.ck.hold = 0 ∧ t.ck.odd = false)

/-- R55: CK.PUTH is CK.PUTB of `h[15:8]` then of `h[7:0]`, in one command; and the closed form. -/
def Obligations.CkPuthPushesTwoBytes : Prop :=
  ∀ (h : Half) (s : State), ∃ u t, exec (.ckPutb (BitVec.ofNat 8 (h.toNat / 256))) s = .next u ∧
    exec (.ckPutb (BitVec.ofNat 8 (h.toNat % 256))) u = .next t ∧
    Answers (.ckPuth h) s t 0 0 ∧ OnlyCk s t ∧ t.ck.csum = s.ck.csum ∧ t.ck.z = s.ck.z ∧ t.ck.odd = s.ck.odd ∧
    (s.ck.odd = false → t.ck.acc.toNat = (s.ck.acc.toNat + h.toNat) % 2 ^ 32 ∧ t.ck.hold = 0) ∧
    (s.ck.odd = true → t.ck.acc.toNat = (s.ck.acc.toNat + (s.ck.hold.toNat * 256 + h.toNat / 256)) % 2 ^ 32 ∧
      t.ck.hold.toNat = h.toNat % 256)

/-- R56: CK.FIN in arithmetic: `t` in 32 bits, truncated to 16 and complemented; `ACC`, `HOLD`, `ODD` stay. -/
def Obligations.CkFinTruncatesAndComplements : Prop :=
  ∀ s : State,
    let sum := (s.ck.acc.toNat + (if s.ck.odd then s.ck.hold.toNat * 256 else 0)) % 2 ^ 32
    let c := 0xFFFF - sum % 65536
    ∃ t, Answers .ckFin s t 0 (BitVec.ofNat 32 c) ∧ OnlyCk s t ∧ t.ck.csum.toNat = c ∧ t.ck.z = decide (c = 0) ∧
      t.ck.acc = s.ck.acc ∧ t.ck.hold = s.ck.hold ∧ t.ck.odd = s.ck.odd

/-- R57: CK.PKT clears, pushes `PKT[0 .. PKLEN-1]` and finalises. The capacity premise holds under the invariant. -/
def Obligations.CkPktSumsThePacket : Prop :=
  ∀ s : State, s.em.pklen.toNat ≤ s.cfg.payMax.val + 8 →
    ∃ t, Answers .ckPkt s t 0 ((checksum s.em.packet).setWidth 32) ∧ OnlyCk s t ∧ Streams t.ck s.em.packet ∧
      t.ck.odd = decide (s.em.pklen.toNat % 2 = 1) ∧ t.ck.csum = checksum s.em.packet ∧
      t.ck.z = decide (checksum s.em.packet = 0)

/-- R59: a buffer with its checksum put into a word-aligned zero slot has checksum 0; so after every EM.SER, CK.PKT answers `(0, 0)` and
sets `Z`. -/
def Obligations.SelfVerification : Prop :=
  (∀ (bs : List Byte) (k : Nat), bs[2 * k]? = some 0 → bs[2 * k + 1]? = some 0 →
    checksum ((bs.set (2 * k) (hiByte (checksum bs))).set (2 * k + 1) (loByte (checksum bs))) = 0) ∧
  (∀ s t : State, s.em.pkt.wf = true → exec .emSer s = .next t → ∃ u, Answers .ckPkt t u 0 0 ∧ u.ck.z = true)

/-- R60 (its folding receiver is general knowledge, G2, log entry 6): this hardware's checksum is the folding receiver's when the word
sum is below 65536, and never is when it is from 65536 up to `0xFFFF0000`. -/
def Obligations.TruncationAgainstFolding : Prop :=
  ∀ bs : List Byte,
    (wsum bs < 65536 → checksum bs = foldedChecksum bs) ∧
    (65536 ≤ wsum bs → wsum bs < 0xFFFF0000 → checksum bs ≠ foldedChecksum bs)

/-- R106: EM.SER and CK.PKT clear and reuse the checksum unit: what they do does not depend on what it held; and CK commands affect no EM
or NR state and no packet byte. -/
def Obligations.ChecksumUnitIsShared : Prop :=
  (∀ (s : State) (c : CkUnit), exec .emSer { s with ck := c } = exec .emSer s ∧ exec .ckPkt { s with ck := c } = exec .ckPkt s) ∧
  (∀ (i : Instr) (s t : State),
    (i = .ckClr ∨ (∃ b, i = .ckPutb b) ∨ (∃ h, i = .ckPuth h) ∨ i = .ckFin ∨ i = .ckPkt) → exec i s = .next t →
    t.em = s.em ∧ t.nr = s.nr ∧ BytesKept s t)

/-- R50, R52: `CK.SUM b0, ..., bk` from any state answers the checksum of its bytes and changes the checksum unit alone. -/
def Obligations.ChecksumCommandsComputeTheSourcesChecksum : Prop :=
  ∀ (bs : List Byte) (s : State), ∃ t, execList (.ckClr :: (bs.map .ckPutb ++ [.ckFin])) s = .next t ∧
    t.host.rsp = some { code := 0, val := (checksum bs).setWidth 32 } ∧ t.ck.csum = checksum bs ∧ Streams t.ck bs ∧ OnlyCk s t

/-! ### The Echo message -/

/-- R64: EM.NEW. -/
def Obligations.EmNewConstructsARequest : Prop :=
  ∀ (v : Half) (s : State), ∃ t, Answers (.emNew v) s t 0 0 ∧ OnlyEm s t ∧ BytesKept s t ∧
    t.em.emid = v ∧ t.em.emseq = 0 ∧ t.em.emck = 0 ∧ t.em.plen = 0 ∧ t.em.pklen = s.em.pklen

/-- R65: EM.PAYB appends a byte, or raises `PayloadFull` when the payload has `PAY_MAX` bytes. -/
def Obligations.EmPaybAppendsAByte : Prop :=
  ∀ (b : Byte) (s : State),
    (s.em.plen.toNat = s.cfg.payMax.val → ∃ t, Answers (.emPayb b) s t 4 0 ∧ t.err = 4 ∧ OnlyErr s t) ∧
    (s.em.pay.wf = true → s.em.plen.toNat < s.cfg.payMax.val →
      ∃ t, Answers (.emPayb b) s t 0 0 ∧ OnlyEm s t ∧ t.byteAt .pay s.em.plen.toNat = b ∧
        (∀ a, a ≠ s.em.plen.toNat → t.byteAt .pay a = s.byteAt .pay a) ∧ (∀ a, t.byteAt .pkt a = s.byteAt .pkt a) ∧
        t.em.plen.toNat = s.em.plen.toNat + 1 ∧ t.em.emck = 0 ∧
        t.em.emid = s.em.emid ∧ t.em.emseq = s.em.emseq ∧ t.em.pklen = s.em.pklen)

/-- R66: EM.SER puts into `PKT` the packet of the payload with its checksum, and what else it writes and leaves. -/
def Obligations.EmSerSerializesTheMessage : Prop :=
  ∀ s : State, s.em.pkt.wf = true → s.em.plen.toNat ≤ s.cfg.payMax.val →
    let payload := s.em.payload
    let c := checksum (packetOf 0 payload)
    c.toNat = 0xFFFF - (0x0800 + wsum payload) % 65536 ∧
    ∃ t, Answers .emSer s t 0 (c.setWidth 32) ∧ t.em.packet = packetOf c payload ∧
      t.em.pklen.toNat = 8 + s.em.plen.toNat ∧ t.em.emck = c ∧ t.ck.csum = c ∧ t.ck.z = decide (c = 0) ∧
      Streams t.ck (packetOf 0 payload) ∧
      t.em.emid = s.em.emid ∧ t.em.emseq = s.em.emseq ∧ t.em.plen = s.em.plen ∧
      (∀ a, t.byteAt .pay a = s.byteAt .pay a) ∧ (∀ a, 8 + s.em.plen.toNat ≤ a → t.byteAt .pkt a = s.byteAt .pkt a) ∧
      t.nr = s.nr ∧ t.err = s.err ∧ t.cfg = s.cfg ∧ HostKept s t

/-- R66, R68: the packet and the response of EM.SER are functions of the payload alone; identifier, sequence number, cached checksum, old
packet and checksum unit never reach the wire. -/
def Obligations.IdentifierNeverReachesTheWire : Prop :=
  ∀ s s' t t' : State, s.em.pkt.wf = true → s'.em.pkt.wf = true →
    s.em.plen = s'.em.plen → (∀ a, a < s.em.plen.toNat → s.byteAt .pay a = s'.byteAt .pay a) →
    exec .emSer s = .next t → exec .emSer s' = .next t' →
    t.em.packet = t'.em.packet ∧ t.em.pklen = t'.em.pklen ∧ t.host.rsp = t'.host.rsp

/-- R23, R107: only EM.SER and reset write the packet: every other command keeps `PKLEN` and every byte of `PKT`. -/
def Obligations.OnlySerializationWritesThePacket : Prop :=
  ∀ (i : Instr) (s t : State), i ≠ .emSer → i ≠ .sysRst → exec i s = .next t →
    t.em.pklen = s.em.pklen ∧ t.em.packet = s.em.packet ∧ ∀ a, t.byteAt .pkt a = s.byteAt .pkt a

/-- R50, R64, R65, R66: `EM.REQ id, b0, ..., bk` then EM.SER builds the packet of those bytes, whatever the state before. -/
def Obligations.EchoCommandsBuildTheSourcesPacket : Prop :=
  ∀ (v : Half) (bs : List Byte) (s : State), s.em.pay.wf = true → s.em.pkt.wf = true → bs.length ≤ s.cfg.payMax.val →
    ∃ t, execList (.emNew v :: (bs.map .emPayb ++ [.emSer])) s = .next t ∧
      t.em.packet = packetOf (checksum (packetOf 0 bs)) bs ∧ t.em.payload = bs ∧ t.em.emid = v ∧
      t.host.rsp = some { code := 0, val := (checksum (packetOf 0 bs)).setWidth 32 } ∧ t.nr = s.nr ∧ t.err = s.err

/-! ### The subnet range -/

/-- R72, R73: NR.ADRH loads address bytes 0 and 1, NR.ADRL bytes 2 and 3; the other half and every other register stay. -/
def Obligations.AddressLoadsInTwoHalves : Prop :=
  ∀ (v : Half) (s : State),
    (∃ t, Answers (.nrAdrh v) s t 0 0 ∧ OnlyNr s t ∧ t.nr = { s.nr with addr := t.nr.addr } ∧
      addrByte t.nr.addr 0 = hiByte v ∧ addrByte t.nr.addr 1 = loByte v ∧
      addrByte t.nr.addr 2 = addrByte s.nr.addr 2 ∧ addrByte t.nr.addr 3 = addrByte s.nr.addr 3) ∧
    (∃ t, Answers (.nrAdrl v) s t 0 0 ∧ OnlyNr s t ∧ t.nr = { s.nr with addr := t.nr.addr } ∧
      addrByte t.nr.addr 2 = hiByte v ∧ addrByte t.nr.addr 3 = loByte v ∧
      addrByte t.nr.addr 0 = addrByte s.nr.addr 0 ∧ addrByte t.nr.addr 1 = addrByte s.nr.addr 1)

/-- R74: NR.DERIVE: the two errors, and what a successful derivation writes. -/
def Obligations.DeriveValidatesThenDerives : Prop :=
  ∀ (p : Byte) (s : State),
    (32 < p.toNat → ∃ t, Answers (.nrDerive p) s t 1 0 ∧ t.err = 1 ∧ t.nr = { s.nr with rvalid := false } ∧
      t.cfg = s.cfg ∧ t.ck = s.ck ∧ t.em = s.em ∧ HostKept s t ∧ BytesKept s t) ∧
    (p.toNat < 24 → ∃ t, Answers (.nrDerive p) s t 2 0 ∧ t.err = 2 ∧ t.nr = { s.nr with rvalid := false } ∧
      t.cfg = s.cfg ∧ t.ck = s.ck ∧ t.em = s.em ∧ HostKept s t ∧ BytesKept s t) ∧
    (24 ≤ p.toNat → p.toNat ≤ 32 → ∃ t, Answers (.nrDerive p) s t 0 0 ∧ OnlyNr s t ∧
      deriveRange s.nr.addr p.toNat = .range t.nr.startA t.nr.endA ∧
      t.nr.pfx = p ∧ t.nr.rbytes.toNat = p.toNat / 8 ∧ t.nr.rbits.toNat = p.toNat % 8 ∧
      t.nr.cur = hostOctet t.nr.startA ∧ t.nr.rvalid = true ∧
      (t.nr.done = true ↔ (hostOctet t.nr.endA).toNat < (hostOctet t.nr.startA).toNat) ∧ t.nr.addr = s.nr.addr)

/-- R71: the table of end octets and counts, for every address. -/
def Obligations.EndOctetsAndCounts : Prop :=
  ∀ a : Word,
    (∀ row ∈ [(24, 0, 254, 254), (25, 1, 126, 126), (26, 2, 62, 62), (27, 3, 30, 30), (28, 4, 14, 14), (29, 5, 6, 6),
        (30, 6, 2, 2), (31, 7, 0, 0)],
      row.1 / 8 = 3 ∧ row.1 % 8 = row.2.1 ∧
      ∃ first last, deriveRange a row.1 = .range first last ∧
        (∀ k, k < 3 → addrByte first k = addrByte a k ∧ addrByte last k = addrByte a k) ∧
        addrByte first 3 = 1 ∧ addrByte last 3 = BitVec.ofNat 8 row.2.2.1 ∧ (addressSeq first last).length = row.2.2.2) ∧
    deriveRange a 32 = .range a a ∧ (addressSeq a a).length = 1

/-- R75: after a successful derivation `START[3] <= END[3]` exactly when the prefix length is not 31, and bytes 0 to 2 of both are those
of the address. -/
def Obligations.RangeIsOrderedExceptAt31 : Prop :=
  ∀ (p : Byte) (s t : State), exec (.nrDerive p) s = .next t → 24 ≤ p.toNat → p.toNat ≤ 32 →
    ((addrByte t.nr.startA 3).toNat ≤ (addrByte t.nr.endA 3).toNat ↔ p.toNat ≠ 31) ∧
    ∀ k, k < 3 → addrByte t.nr.startA k = addrByte s.nr.addr k ∧ addrByte t.nr.endA k = addrByte s.nr.addr k

/-- R76: for prefix lengths 24 to 31 the host octets are functions of the prefix length alone; the address's own host octet is not read;
and the rule's example. -/
def Obligations.OwnHostOctetIsNotRead : Prop :=
  (∀ (p : Byte) (s s' t t' : State), 24 ≤ p.toNat → p.toNat ≤ 31 →
    exec (.nrDerive p) s = .next t → exec (.nrDerive p) s' = .next t' →
    addrByte t.nr.startA 3 = addrByte t'.nr.startA 3 ∧ addrByte t.nr.endA 3 = addrByte t'.nr.endA 3 ∧
    t.nr.cur = t'.nr.cur ∧ t.nr.done = t'.nr.done ∧
    ((∀ k, k < 3 → addrByte s.nr.addr k = addrByte s'.nr.addr k) → t.nr.startA = t'.nr.startA ∧ t.nr.endA = t'.nr.endA)) ∧
  deriveRange 0xC0A801C8 25 = .range 0xC0A80101 0xC0A8017E

/-- R79: NR.NEXT: the two errors in their order, the address given, and how the iterator moves; the increment never wraps. -/
def Obligations.NextGivesTheNextAddress : Prop :=
  ∀ s : State,
    (s.nr.rvalid = false → ∃ t, Answers .nrNext s t 6 0 ∧ t.err = 6 ∧ OnlyErr s t) ∧
    (s.nr.rvalid = true → s.nr.done = true → ∃ t, Answers .nrNext s t 7 0 ∧ t.err = 7 ∧ OnlyErr s t) ∧
    (s.nr.rvalid = true → s.nr.done = false →
      ∃ t v, Answers .nrNext s t 0 v ∧ OnlyNr s t ∧ v.toNat = s.nr.startA.toNat / 256 * 256 + s.nr.cur.toNat ∧
        (s.nr.cur = hostOctet s.nr.endA → t.nr = { s.nr with done := true }) ∧
        (s.nr.cur ≠ hostOctet s.nr.endA → t.nr = { s.nr with cur := s.nr.cur + 1 } ∧
          (s.nr.Good → t.nr.cur.toNat = s.nr.cur.toNat + 1)))

/-- R80, R78: after a successful derivation, repeating NR.NEXT gives exactly the sequence of the range, in order, and then `RangeDone`; the
commands of other families but SYS.RST leave the iterator alone (R80 does not name SYS.RST, which R30 says writes everything). -/
def Obligations.IteratorGivesTheWholeSequence : Prop :=
  (∀ (p : Byte) (s t : State) (fuel : Nat), exec (.nrDerive p) s = .next t → 24 ≤ p.toNat → p.toNat ≤ 32 → 256 ≤ fuel →
    (sweep fuel t).1 = addressSeq t.nr.startA t.nr.endA ∧
    (sweep fuel t).1.length = (addrByte t.nr.endA 3).toNat + 1 - (addrByte t.nr.startA 3).toNat ∧
    (sweep fuel t).2.host.rsp = some { code := 7, val := 0 }) ∧
  (∀ (i : Instr) (s t : State), (∀ v, i ≠ .nrAdrh v) → (∀ v, i ≠ .nrAdrl v) → (∀ p, i ≠ .nrDerive p) → i ≠ .nrNext →
    i ≠ .sysRst → exec i s = .next t → t.nr = s.nr)

/-- R50, R70: `NR.RANGE a.b.c.d/p` from any state leaves `deriveRange` of the address and the prefix length, or its error and no range. -/
def Obligations.RangeCommandsComputeDeriveRange : Prop :=
  ∀ (a b c d p : Byte) (s : State), ∃ t, execList [.nrAdrh (a ++ b), .nrAdrl (c ++ d), .nrDerive p] s = .next t ∧
    t.ck = s.ck ∧ t.em = s.em ∧ BytesKept s t ∧
    match deriveRange (a ++ b ++ c ++ d) p.toNat with
    | .range first last => t.host.rsp = some { code := 0, val := 0 } ∧ t.nr.startA = first ∧ t.nr.endA = last ∧ t.nr.rvalid = true
    | .fails e => t.host.rsp = some { code := e.code, val := 0 } ∧ t.err = e.code ∧ t.nr.rvalid = false

/-! ### The host on an error -/

/-- R100: when the host's socket fails and the host keeps the rule, the CORE, which is not told, keeps `CUR` where it is, and the range
with it, through whatever the host presents after, until the host derives again or resets. What counts as a scan given up is the model's
choice (log entry 13). -/
def Obligations.CoreKeepsCurAfterATransportFailure : Prop :=
  ∀ (v : HostView) (es : List HostEvent) (s t : State),
    hostKeepsR100 v (.transportFailure :: es) s = true → (∀ e ∈ es, e.placesIterator = false) →
    deliverAll (.transportFailure :: es) s = .next t →
    t.nr.cur = s.nr.cur ∧ t.nr = { s.nr with addr := t.nr.addr }

/-- R97, R100: the CORE does not enforce what the host owes after a refused derivation: it is not stopped, a retry of the same derivation is
executed and answered the same, and NR.NEXT raises `NoRange`, also after any commands that derive nothing. -/
def Obligations.RefusedDerivationsDoNotStopTheCore : Prop :=
  (∀ (p : Byte) (s t : State), exec (.nrDerive p) s = .next t → 32 < p.toNat ∨ p.toNat < 24 →
    exec (.nrDerive p) t = .next t ∧ t.nr.rvalid = false ∧ t.nr.cur = s.nr.cur) ∧
  (∀ s : State, s.nr.rvalid = false → ∃ t, Answers .nrNext s t 6 0) ∧
  (∀ (i : Instr) (s t : State), s.nr.rvalid = false → derivedPrefix? i = none → exec i s = .next t → t.nr.rvalid = false)
end

