-- ==== Sys2Proof/Laws/State.lean ====
section
/-! SUPPORT. One lemma per field per named update of the state, and of the units, so that no later proof unfolds a record update. -/

namespace Sys2Proof.Machine

/-! ### `State.withRsp` -/

@[simp] theorem State.withRsp_cfg (s : State) (r : Option Response) : (s.withRsp r).cfg = s.cfg := rfl
@[simp] theorem State.withRsp_ck (s : State) (r : Option Response) : (s.withRsp r).ck = s.ck := rfl
@[simp] theorem State.withRsp_em (s : State) (r : Option Response) : (s.withRsp r).em = s.em := rfl
@[simp] theorem State.withRsp_nr (s : State) (r : Option Response) : (s.withRsp r).nr = s.nr := rfl
@[simp] theorem State.withRsp_err (s : State) (r : Option Response) : (s.withRsp r).err = s.err := rfl
@[simp] theorem State.withRsp_program (s : State) (r : Option Response) : (s.withRsp r).host.program = s.host.program := rfl
@[simp] theorem State.withRsp_pc (s : State) (r : Option Response) : (s.withRsp r).host.pc = s.host.pc := rfl
@[simp] theorem State.withRsp_rsp (s : State) (r : Option Response) : (s.withRsp r).host.rsp = r := rfl
@[simp] theorem State.withRsp_mem (s : State) (r : Option Response) (sp : Space) : (s.withRsp r).mem sp = s.mem sp := by cases sp <;> rfl
@[simp] theorem State.withRsp_byteAt (s : State) (r : Option Response) (sp : Space) (a : Nat) : (s.withRsp r).byteAt sp a = s.byteAt sp a := by cases sp <;> rfl
@[simp] theorem State.withRsp_capacity (s : State) (r : Option Response) (sp : Space) : (s.withRsp r).capacity sp = s.capacity sp := by cases sp <;> rfl
@[simp] theorem State.withRsp_withRsp (s : State) (r r' : Option Response) : (s.withRsp r).withRsp r' = s.withRsp r' := rfl

/-! ### `State.advance` -/

@[simp] theorem State.advance_cfg (s : State) : s.advance.cfg = s.cfg := rfl
@[simp] theorem State.advance_ck (s : State) : s.advance.ck = s.ck := rfl
@[simp] theorem State.advance_em (s : State) : s.advance.em = s.em := rfl
@[simp] theorem State.advance_nr (s : State) : s.advance.nr = s.nr := rfl
@[simp] theorem State.advance_err (s : State) : s.advance.err = s.err := rfl
@[simp] theorem State.advance_program (s : State) : s.advance.host.program = s.host.program := rfl
@[simp] theorem State.advance_pc (s : State) : s.advance.host.pc = s.host.pc + 1 := rfl
@[simp] theorem State.advance_rsp (s : State) : s.advance.host.rsp = s.host.rsp := rfl
@[simp] theorem State.advance_mem (s : State) (sp : Space) : s.advance.mem sp = s.mem sp := by cases sp <;> rfl
@[simp] theorem State.advance_byteAt (s : State) (sp : Space) (a : Nat) : s.advance.byteAt sp a = s.byteAt sp a := by cases sp <;> rfl
@[simp] theorem State.advance_capacity (s : State) (sp : Space) : s.advance.capacity sp = s.capacity sp := by cases sp <;> rfl

/-! ### `resetCore` -/

@[simp] theorem resetCore_cfg (s : State) : (resetCore s).cfg = s.cfg := rfl
@[simp] theorem resetCore_ck (s : State) : (resetCore s).ck = .reset := rfl
@[simp] theorem resetCore_em (s : State) : (resetCore s).em = .reset := rfl
@[simp] theorem resetCore_nr (s : State) : (resetCore s).nr = .reset := rfl
@[simp] theorem resetCore_err (s : State) : (resetCore s).err = 0 := rfl
@[simp] theorem resetCore_host (s : State) : (resetCore s).host = s.host := rfl

/-! ### `dropRange` -/

@[simp] theorem dropRange_cfg (s : State) : (dropRange s).cfg = s.cfg := rfl
@[simp] theorem dropRange_ck (s : State) : (dropRange s).ck = s.ck := rfl
@[simp] theorem dropRange_em (s : State) : (dropRange s).em = s.em := rfl
@[simp] theorem dropRange_err (s : State) : (dropRange s).err = s.err := rfl
@[simp] theorem dropRange_host (s : State) : (dropRange s).host = s.host := rfl
@[simp] theorem dropRange_nr (s : State) : (dropRange s).nr = { s.nr with rvalid := false } := rfl
@[simp] theorem dropRange_byteAt (s : State) (sp : Space) (a : Nat) : (dropRange s).byteAt sp a = s.byteAt sp a := by cases sp <;> rfl

/-! ### `State.placeInput`, `State.placeCommand` -/

@[simp] theorem State.placeInput_cfg (s : State) (x : HostInput) : (s.placeInput x).cfg = s.cfg := rfl
@[simp] theorem State.placeInput_ck (s : State) (x : HostInput) : (s.placeInput x).ck = s.ck := rfl
@[simp] theorem State.placeInput_em (s : State) (x : HostInput) : (s.placeInput x).em = s.em := rfl
@[simp] theorem State.placeInput_nr (s : State) (x : HostInput) : (s.placeInput x).nr = s.nr := rfl
@[simp] theorem State.placeInput_err (s : State) (x : HostInput) : (s.placeInput x).err = s.err := rfl
@[simp] theorem State.placeInput_pc (s : State) (x : HostInput) : (s.placeInput x).host.pc = s.host.pc := rfl
@[simp] theorem State.placeInput_rsp (s : State) (x : HostInput) : (s.placeInput x).host.rsp = s.host.rsp := rfl
@[simp] theorem State.placeInput_byteAt (s : State) (x : HostInput) (sp : Space) (a : Nat) : (s.placeInput x).byteAt sp a = s.byteAt sp a := by cases sp <;> rfl
theorem State.placeCommand_eq (s : State) (w : Word) : s.placeCommand w = s.placeInput (.command w) := rfl

/-! ### The checksum unit -/

@[simp] theorem CkUnit.clear_acc (c : CkUnit) : c.clear.acc = 0 := rfl
@[simp] theorem CkUnit.clear_hold (c : CkUnit) : c.clear.hold = 0 := rfl
@[simp] theorem CkUnit.clear_odd (c : CkUnit) : c.clear.odd = false := rfl
@[simp] theorem CkUnit.clear_csum (c : CkUnit) : c.clear.csum = c.csum := rfl
@[simp] theorem CkUnit.clear_z (c : CkUnit) : c.clear.z = c.z := rfl
@[simp] theorem CkUnit.finalise_acc (c : CkUnit) : c.finalise.acc = c.acc := rfl
@[simp] theorem CkUnit.finalise_hold (c : CkUnit) : c.finalise.hold = c.hold := rfl
@[simp] theorem CkUnit.finalise_odd (c : CkUnit) : c.finalise.odd = c.odd := rfl
@[simp] theorem CkUnit.finalise_csum (c : CkUnit) : c.finalise.csum = c.result := rfl
@[simp] theorem CkUnit.finalise_z (c : CkUnit) : c.finalise.z = zFlag c.result := rfl

/-! ### Memories and capacities -/

@[simp] theorem State.byteAt_pay (s : State) (a : Nat) : s.byteAt .pay a = s.em.pay.read a := rfl
@[simp] theorem State.byteAt_pkt (s : State) (a : Nat) : s.byteAt .pkt a = s.em.pkt.read a := rfl
@[simp] theorem State.capacity_pay (s : State) : s.capacity .pay = s.cfg.payMax.val := rfl
@[simp] theorem State.capacity_pkt (s : State) : s.capacity .pkt = s.cfg.payMax.val + 8 := rfl

end Sys2Proof.Machine
end

