-- ==== Sys2Proof/Laws/Ops.lean ====
section
/-! SUPPORT. What each shared operation can do, said once: the guarded access, the answers and errors, the windowed read, the decoder's
answers, and the host's side. -/

namespace Sys2Proof.Machine

/-- A guarded access goes on exactly inside the capacity. -/
theorem guardCapacity_next {s t : State} {sp : Space} {n : Nat} {k : Host.Outcome State Fault Refusal} :
    guardCapacity s sp n k = .next t ↔ n ≤ s.capacity sp ∧ k = .next t := by
  unfold guardCapacity
  split <;> simp_all

theorem guardCapacity_inside {s : State} {sp : Space} {n : Nat} (h : n ≤ s.capacity sp) (k : Host.Outcome State Fault Refusal) :
    guardCapacity s sp n k = k := if_pos h

/-- `respond` always answers, and changes the response port alone. -/
theorem respond_next {v : Word} {s t : State} : respond v s = .next t ↔ t = s.withRsp (some { code := 0, val := v }) := by
  simp [respond, eq_comm]

theorem complete_next {s t : State} : complete s = .next t ↔ t = s.withRsp (some { code := 0, val := 0 }) := respond_next

/-- `raise` always answers, writes `ERR` and the response port, and keeps all else (R92). -/
theorem raise_next {e : ErrorCode} {s t : State} :
    raise e s = .next t ↔ t = { s with err := e.code }.withRsp (some { code := e.code, val := 0 }) := by
  simp [raise, eq_comm]

/-- Every error has a code from 1 to 7. -/
theorem ErrorCode.code_range (e : ErrorCode) : 1 ≤ e.code.toNat ∧ e.code.toNat ≤ 7 := by cases e <;> decide

theorem ErrorCode.code_ne_zero (e : ErrorCode) : e.code ≠ 0 := by cases e <;> decide

/-- What a windowed read can do: it answers the byte inside the window, and raises `BadAddress` outside it. -/
theorem loadByte_next {sp : Space} {len a : Half} {s t : State} :
    loadByte sp len a s = .next t ↔
      (len ≤ a ∧ raise .badAddress s = .next t) ∨
      (¬ len ≤ a ∧ a.toNat + 1 ≤ s.capacity sp ∧ respond ((s.byteAt sp a.toNat).setWidth 32) s = .next t) := by
  unfold loadByte
  split <;> simp_all [guardCapacity_next]

/-- The registers are those numbered 0 to 19 (R14). -/
theorem regOfIndex_isSome (r : Byte) : (regOfIndex r).isSome = decide (r.toNat ≤ 19) := by
  revert r; decide

/-- Resetting the CORE gives the reset state of the same configuration, with the host's side as it was. -/
theorem resetCore_eq (s : State) : resetCore s = { State.resetWith s.cfg with host := s.host } := rfl

/-- The input placed is the next input. -/
theorem nextInput_placeInput (s : State) (x : HostInput) : (s.placeInput x).nextInput = some x := by
  have h : ∀ (n : Nat) (l : List HostInput), (placeAt x n l)[n]? = some x := by
    intro n
    induction n with
    | zero => intro l; cases l <;> rfl
    | succ n ih => intro l; cases l <;> simp [placeAt, ih]
  exact h _ _

theorem nextInput_placeCommand (s : State) (w : Word) : (s.placeCommand w).nextInput = some (.command w) :=
  nextInput_placeInput s (.command w)

/-- Of a transport failure the CORE sees nothing (R100). -/
@[simp] theorem deliver_transportFailure (s : State) : deliver .transportFailure s = .next (s.withRsp none) := rfl

/-- A command presented is executed, or raises `IllegalCommand`, on the state whose position has moved on. -/
theorem deliver_command (w : Word) (s : State) :
    deliver (.presents (.command w)) s =
      match decode w with
      | .command i => exec i (s.placeInput (.command w)).advance
      | .illegal _ => execIllegal (s.placeInput (.command w)).advance := by
  show step (s.placeInput (.command w)) = _
  cases h : decode w <;> simp only [step, nextInput_placeInput, h]

theorem deliverAll_cons_next {e : HostEvent} {es : List HostEvent} {s t : State} :
    deliverAll (e :: es) s = .next t ↔ ∃ u, deliver e s = .next u ∧ deliverAll es u = .next t := by
  simp only [deliverAll]
  split <;> simp_all

/-- What an obliging host may present with a scan given up, and what it may present at all. -/
theorem HostView.allows_instr {v : HostView} {e : HostEvent} {s : State} {i : Instr} (h : v.allows e s = true) (hi : e.instr? = some i) :
    (v.scanGivenUp = true → i ≠ .nrNext) ∧ ∀ p, derivedPrefix? i = some p → (s.nr.addr, p) ∉ v.refusedDerivations := by
  simp only [HostView.allows, hi, Bool.and_eq_true, Bool.or_eq_true, bne_iff_ne, Bool.not_eq_true'] at h
  refine ⟨fun hv => h.1.resolve_right (by simp [hv]), fun p hp => ?_⟩
  rw [hp] at h
  simpa using h.2

/-- `nextInput` does not read the CORE. -/
@[simp] theorem nextInput_withRsp (s : State) (r : Option Response) : (s.withRsp r).nextInput = s.nextInput := rfl

end Sys2Proof.Machine

namespace Sys2Proof

theorem decode?_eq_some {w : Word} {i : Instr} : decode? w = some i ↔ decode w = .command i := by
  unfold decode?
  split <;> simp_all

end Sys2Proof
end

