-- ==== Sys2Proof/Laws/Checksum.lean ====
section
/-! SUPPORT. The word sum and the checksum unit: sums of joined buffers, what pushing a byte does to the stream, and what finalising a
stream gives. -/

namespace Sys2Proof.Machine

@[simp] theorem wsum_nil : wsum [] = 0 := rfl

/-- A buffer of even length keeps the pairing of what follows it. -/
theorem wsum_append_even (xs ys : List Byte) (h : xs.length % 2 = 0) : wsum (xs ++ ys) = wsum xs + wsum ys := by
  induction xs using wsum.induct with
  | case1 => simp
  | case2 b => simp at h
  | case3 b c bs ih =>
    simp only [List.cons_append, wsum]
    rw [ih (by simp only [List.length_cons] at h; omega)]
    omega

/-- One more byte after an even number of bytes is a high byte. -/
theorem wsum_snoc_even (bs : List Byte) (b : Byte) (h : bs.length % 2 = 0) : wsum (bs ++ [b]) = wsum bs + b.toNat * 256 := by
  rw [wsum_append_even _ _ h]; rfl

/-- One more byte after an odd number of bytes is a low byte. -/
theorem wsum_snoc_odd (bs : List Byte) (b : Byte) (h : bs.length % 2 = 1) : wsum (bs ++ [b]) = wsum bs + b.toNat := by
  induction bs using wsum.induct with
  | case1 => simp at h
  | case2 x => simp [wsum]
  | case3 x y bs ih =>
    simp only [List.cons_append, wsum]
    rw [ih (by simp only [List.length_cons] at h; omega)]
    omega

/-- A pair of bytes as a number. -/
theorem pairWord_toNat (hi lo : Byte) : (pairWord hi lo).toNat = hi.toNat * 256 + lo.toNat := by
  have h1 := hi.isLt
  have h2 := lo.isLt
  simp only [pairWord, BitVec.toNat_setWidth, BitVec.toNat_append]
  rw [← Nat.shiftLeft_add_eq_or_of_lt h2, Nat.shiftLeft_eq]
  omega

/-- R54, at an even index. -/
theorem CkUnit.pushByte_even {c : CkUnit} (h : c.odd = false) (b : Byte) :
    c.pushByte b = { c with hold := b, odd := true } := by
  simp [CkUnit.pushByte, h, oddFlip]

/-- R54, at an odd index. -/
theorem CkUnit.pushByte_odd {c : CkUnit} (h : c.odd = true) (b : Byte) :
    c.pushByte b = { c with acc := c.acc + pairWord c.hold b, hold := 0, odd := false } := by
  simp [CkUnit.pushByte, h, oddFlip]

@[simp] theorem CkUnit.pushByte_csum (c : CkUnit) (b : Byte) : (c.pushByte b).csum = c.csum := by
  unfold CkUnit.pushByte; split <;> rfl

@[simp] theorem CkUnit.pushByte_z (c : CkUnit) (b : Byte) : (c.pushByte b).z = c.z := by
  unfold CkUnit.pushByte; split <;> rfl

@[simp] theorem CkUnit.pushBytes_nil (c : CkUnit) : c.pushBytes [] = c := rfl

theorem CkUnit.pushBytes_cons (c : CkUnit) (b : Byte) (bs : List Byte) : c.pushBytes (b :: bs) = (c.pushByte b).pushBytes bs := rfl

theorem CkUnit.pushBytes_append (c : CkUnit) (xs ys : List Byte) : c.pushBytes (xs ++ ys) = (c.pushBytes xs).pushBytes ys :=
  List.foldl_append ..

@[simp] theorem CkUnit.pushBytes_csum (c : CkUnit) (bs : List Byte) : (c.pushBytes bs).csum = c.csum := by
  induction bs generalizing c with
  | nil => rfl
  | cons b bs ih => rw [pushBytes_cons, ih, pushByte_csum]

@[simp] theorem CkUnit.pushBytes_z (c : CkUnit) (bs : List Byte) : (c.pushBytes bs).z = c.z := by
  induction bs generalizing c with
  | nil => rfl
  | cons b bs ih => rw [pushBytes_cons, ih, pushByte_z]

/-- A clear starts the empty stream (R53). -/
theorem streams_clear (c : CkUnit) : Streams c.clear [] := ⟨rfl, rfl, rfl⟩

/-- Pushing a byte appends it to the stream (R54). -/
theorem Streams.pushByte {c : CkUnit} {bs : List Byte} (h : Streams c bs) (b : Byte) : Streams (c.pushByte b) (bs ++ [b]) := by
  have hs := h.sum_eq
  have hb := b.isLt
  cases hc : c.odd with
  | false =>
    have ho := h.odd_iff
    rw [hc] at ho
    have hlen : bs.length % 2 = 0 := by simp at ho; omega
    rw [CkUnit.pushByte_even hc]
    refine ⟨?_, by simp, ?_⟩
    · simp; omega
    · rw [wsum_snoc_even _ _ hlen]
      simp only [hc, Bool.false_eq_true, if_false, if_true] at hs ⊢
      omega
  | true =>
    have ho := h.odd_iff
    rw [hc] at ho
    have hlen : bs.length % 2 = 1 := by simpa using ho.symm
    rw [CkUnit.pushByte_odd hc]
    refine ⟨?_, by simp, ?_⟩
    · simp; omega
    · rw [wsum_snoc_odd _ _ hlen]
      simp only [hc, if_true, Bool.false_eq_true, if_false, BitVec.toNat_add, pairWord_toNat] at hs ⊢
      omega

/-- Pushing a buffer appends it to the stream. -/
theorem Streams.pushBytes {c : CkUnit} {bs : List Byte} (h : Streams c bs) (xs : List Byte) :
    Streams (c.pushBytes xs) (bs ++ xs) := by
  induction xs generalizing c bs with
  | nil => simpa using h
  | cons b xs ih =>
    have := ih (h.pushByte b)
    rwa [List.append_assoc, List.singleton_append] at this

/-- The stream of a cleared unit after a buffer. -/
theorem streams_clear_pushBytes (c : CkUnit) (bs : List Byte) : Streams (c.clear.pushBytes bs) bs :=
  (streams_clear c).pushBytes bs

/-- Finalising keeps the stream (R56). -/
theorem Streams.finalise {c : CkUnit} {bs : List Byte} (h : Streams c bs) : Streams c.finalise bs :=
  ⟨h.odd_iff, h.hold_eq, h.sum_eq⟩

theorem CkUnit.paddedSum_toNat (c : CkUnit) :
    c.paddedSum.toNat = (c.acc.toNat + (if c.odd then c.hold.toNat * 256 else 0)) % 2 ^ 32 := by
  have h := c.acc.isLt
  unfold CkUnit.paddedSum
  split
  · simp [BitVec.toNat_add, pairWord_toNat]
  · simp; omega

/-- What finalising gives is a function of the stream alone (R51, R52). -/
theorem Streams.result_eq {c : CkUnit} {bs : List Byte} (h : Streams c bs) : c.result = checksum bs := by
  apply BitVec.eq_of_toNat_eq
  simp only [CkUnit.result, checksum, BitVec.toNat_not, BitVec.extractLsb'_toNat, BitVec.toNat_ofNat, Nat.shiftRight_zero]
  rw [CkUnit.paddedSum_toNat, h.sum_eq]
  omega

/-- What summing a whole buffer gives (R57, R66). -/
theorem CkUnit.sumBuffer_csum (c : CkUnit) (bs : List Byte) : (c.sumBuffer bs).csum = checksum bs :=
  (streams_clear_pushBytes c bs).result_eq

theorem streams_sumBuffer (c : CkUnit) (bs : List Byte) : Streams (c.sumBuffer bs) bs :=
  (streams_clear_pushBytes c bs).finalise

end Sys2Proof.Machine
end

