-- ==== Sys2Proof/Laws/Decode.lean ====
section
/-! SUPPORT. The fields of a command word (R40): what they are in a word put together from its parts, and that a word is its fields. -/

namespace Sys2Proof

@[simp] theorem opField_wordZ (op : Byte) : opField (wordZ op) = op := by
  apply BitVec.eq_of_getLsbD_eq
  intro i hi
  simp only [opField, wordZ, BitVec.getLsbD_extractLsb', BitVec.getLsbD_append]
  interval_cases i <;> simp

@[simp] theorem aField_wordZ (op : Byte) : aField (wordZ op) = 0 := by
  apply BitVec.eq_of_getLsbD_eq
  intro i hi
  simp only [aField, wordZ, BitVec.getLsbD_extractLsb', BitVec.getLsbD_append]
  interval_cases i <;> simp

@[simp] theorem immField_wordZ (op : Byte) : immField (wordZ op) = 0 := by
  apply BitVec.eq_of_getLsbD_eq
  intro i hi
  simp only [immField, wordZ, BitVec.getLsbD_extractLsb', BitVec.getLsbD_append]
  interval_cases i <;> simp

@[simp] theorem opField_wordA (op v : Byte) : opField (wordA op v) = op := by
  apply BitVec.eq_of_getLsbD_eq
  intro i hi
  simp only [opField, wordA, BitVec.getLsbD_extractLsb', BitVec.getLsbD_append]
  interval_cases i <;> simp

@[simp] theorem aField_wordA (op v : Byte) : aField (wordA op v) = v := by
  apply BitVec.eq_of_getLsbD_eq
  intro i hi
  simp only [aField, wordA, BitVec.getLsbD_extractLsb', BitVec.getLsbD_append]
  interval_cases i <;> simp

@[simp] theorem immField_wordA (op v : Byte) : immField (wordA op v) = 0 := by
  apply BitVec.eq_of_getLsbD_eq
  intro i hi
  simp only [immField, wordA, BitVec.getLsbD_extractLsb', BitVec.getLsbD_append]
  interval_cases i <;> simp

@[simp] theorem opField_wordB (op v : Byte) : opField (wordB op v) = op := by
  apply BitVec.eq_of_getLsbD_eq
  intro i hi
  simp only [opField, wordB, BitVec.getLsbD_extractLsb', BitVec.getLsbD_append]
  interval_cases i <;> simp

@[simp] theorem aField_wordB (op v : Byte) : aField (wordB op v) = 0 := by
  apply BitVec.eq_of_getLsbD_eq
  intro i hi
  simp only [aField, wordB, BitVec.getLsbD_extractLsb', BitVec.getLsbD_append]
  interval_cases i <;> simp

@[simp] theorem immHigh_wordB (op v : Byte) : immHigh (wordB op v) = 0 := by
  apply BitVec.eq_of_getLsbD_eq
  intro i hi
  simp only [immHigh, wordB, BitVec.getLsbD_extractLsb', BitVec.getLsbD_append]
  interval_cases i <;> simp

@[simp] theorem immLow_wordB (op v : Byte) : immLow (wordB op v) = v := by
  apply BitVec.eq_of_getLsbD_eq
  intro i hi
  simp only [immLow, wordB, BitVec.getLsbD_extractLsb', BitVec.getLsbD_append]
  interval_cases i <;> simp

@[simp] theorem opField_wordH (op : Byte) (v : Half) : opField (wordH op v) = op := by
  apply BitVec.eq_of_getLsbD_eq
  intro i hi
  simp only [opField, wordH, BitVec.getLsbD_extractLsb', BitVec.getLsbD_append]
  interval_cases i <;> simp

@[simp] theorem aField_wordH (op : Byte) (v : Half) : aField (wordH op v) = 0 := by
  apply BitVec.eq_of_getLsbD_eq
  intro i hi
  simp only [aField, wordH, BitVec.getLsbD_extractLsb', BitVec.getLsbD_append]
  interval_cases i <;> simp

@[simp] theorem immField_wordH (op : Byte) (v : Half) : immField (wordH op v) = v := by
  apply BitVec.eq_of_getLsbD_eq
  intro i hi
  simp only [immField, wordH, BitVec.getLsbD_extractLsb', BitVec.getLsbD_append]
  interval_cases i <;> simp

/-- A word is its three fields. -/
theorem word_eq_fields (w : Word) : w = opField w ++ aField w ++ immField w := by
  apply BitVec.eq_of_getLsbD_eq
  intro i hi
  simp only [opField, aField, immField, BitVec.getLsbD_extractLsb', BitVec.getLsbD_append]
  interval_cases i <;> simp

/-- The immediate is its two bytes. -/
theorem immField_eq_bytes (w : Word) : immField w = immHigh w ++ immLow w := by
  apply BitVec.eq_of_getLsbD_eq
  intro i hi
  simp only [immHigh, immLow, immField, BitVec.getLsbD_extractLsb', BitVec.getLsbD_append]
  interval_cases i <;> simp

/-- What looking up an opcode can answer: the command of a row of the map with that opcode. -/
theorem opcodeOf_eq_some {op : Byte} {o : Opcode} (h : opcodeOf op = some o) :
    ∃ r ∈ commandMap, r.op = op ∧ r.command = o := by
  obtain ⟨r, hr, rfl⟩ := Option.map_eq_some_iff.1 h
  exact ⟨r, List.mem_of_find?_eq_some hr, by simpa using List.find?_some hr, rfl⟩

/-- What looking up a mnemonic can answer: the command of a row of the map with that mnemonic. -/
theorem opcodeOfMnemonic_eq_some {m : String} {o : Opcode} (h : opcodeOfMnemonic m = some o) :
    ∃ r ∈ commandMap, r.mnemonic = m ∧ r.command = o := by
  obtain ⟨r, hr, rfl⟩ := Option.map_eq_some_iff.1 h
  exact ⟨r, List.mem_of_find?_eq_some hr, by simpa using List.find?_some hr, rfl⟩

end Sys2Proof
end

