-- ==== Sys2Proof/Laws/Operands.lean ====
section
/-! SUPPORT. What the operand forms give: the bytes of a halfword and of an address, and the two parts of a prefix length, as numbers. -/

namespace Sys2Proof.Machine

theorem hiByte_toNat (h : Half) : (hiByte h).toNat = h.toNat / 256 := by
  have := h.isLt
  simp only [hiByte, BitVec.extractLsb'_toNat, Nat.shiftRight_eq_div_pow]
  omega

theorem loByte_toNat (h : Half) : (loByte h).toNat = h.toNat % 256 := by
  simp only [loByte, BitVec.extractLsb'_toNat, Nat.shiftRight_zero]

theorem hostOctet_toNat (x : Word) : (hostOctet x).toNat = x.toNat % 256 := by
  simp only [hostOctet, BitVec.extractLsb'_toNat, Nat.shiftRight_zero]

/-- The host octet is byte 3 (R25). -/
theorem hostOctet_eq (x : Word) : hostOctet x = addrByte x 3 := rfl

/-- The host octet of an address put together (R74). -/
@[simp] theorem hostOctet_withOctet (x : Word) (o : Byte) : hostOctet (withOctet x o) = o := by
  apply BitVec.eq_of_getLsbD_eq
  intro i hi
  simp only [hostOctet, withOctet, BitVec.getLsbD_extractLsb', BitVec.getLsbD_append]
  simp [hi]

/-- The network bytes of an address put together are those of the address it came from (R74). -/
theorem addrByte_withOctet (x : Word) (o : Byte) {k : Nat} (h : k < 3) : addrByte (withOctet x o) k = addrByte x k := by
  apply BitVec.eq_of_getLsbD_eq
  intro i hi
  have h1 : ¬ 24 - 8 * k + i < 8 := by omega
  have h2 : 24 - 8 * k + i - 8 < 24 := by omega
  have h3 : 8 + (24 - 8 * k + i - 8) = 24 - 8 * k + i := by omega
  simp only [addrByte, withOctet, BitVec.getLsbD_extractLsb', BitVec.getLsbD_append]
  simp [h1, h2, h3]

theorem withOctet_toNat (x : Word) (o : Byte) : (withOctet x o).toNat = x.toNat / 256 * 256 + o.toNat := by
  have h1 := x.isLt
  have h2 := o.isLt
  simp only [withOctet, BitVec.toNat_append, BitVec.extractLsb'_toNat]
  rw [← Nat.shiftLeft_add_eq_or_of_lt h2, Nat.shiftLeft_eq, Nat.shiftRight_eq_div_pow]
  omega

/-- An address with another host octet, then another, has the last (R78). -/
@[simp] theorem withOctet_withOctet (x : Word) (o o' : Byte) : withOctet (withOctet x o) o' = withOctet x o' := by
  apply BitVec.eq_of_toNat_eq
  have h := o.isLt
  simp only [withOctet_toNat]
  omega

/-- R72: the bytes NR.ADRH loads and keeps. -/
theorem withAddrHigh_toNat (x : Word) (v : Half) : (withAddrHigh x v).toNat = v.toNat * 65536 + x.toNat % 65536 := by
  have h : x.toNat % 65536 < 2 ^ 16 := Nat.mod_lt _ (by decide)
  simp only [withAddrHigh, BitVec.toNat_append, BitVec.extractLsb'_toNat, Nat.shiftRight_zero]
  rw [← Nat.shiftLeft_add_eq_or_of_lt h, Nat.shiftLeft_eq]

/-- R73: the bytes NR.ADRL loads and keeps. -/
theorem withAddrLow_toNat (x : Word) (v : Half) : (withAddrLow x v).toNat = x.toNat / 65536 * 65536 + v.toNat := by
  have h1 := x.isLt
  have h2 := v.isLt
  simp only [withAddrLow, BitVec.toNat_append, BitVec.extractLsb'_toNat]
  rw [← Nat.shiftLeft_add_eq_or_of_lt h2, Nat.shiftLeft_eq, Nat.shiftRight_eq_div_pow]
  omega

theorem addrByte_toNat (x : Word) (k : Nat) : (addrByte x k).toNat = x.toNat / 2 ^ (24 - 8 * k) % 256 := by
  simp only [addrByte, BitVec.extractLsb'_toNat, Nat.shiftRight_eq_div_pow]

/-- R70, R81: the two parts of a prefix length that may be derived. -/
theorem reservedBytes_toNat {p : Byte} (h : p.toNat ≤ 32) : (reservedBytes p).toNat = p.toNat / 8 := by
  have h8 : (8 : Byte).toNat = 8 := rfl
  simp only [reservedBytes, BitVec.toNat_setWidth, BitVec.toNat_udiv, h8]
  omega

theorem reservedBits_toNat (p : Byte) : (reservedBits p).toNat = p.toNat % 8 := by
  have h8 : (8 : Byte).toNat = 8 := rfl
  simp only [reservedBits, BitVec.toNat_setWidth, BitVec.toNat_umod, h8]
  omega

end Sys2Proof.Machine
end

