-- ==== Sys2Proof/Laws/PerInstr.lean ====
section
/-! SUPPORT. Statements made for every instruction, one lemma per constructor: `TableRow`, the word of a command is the one its row of the
opcode table prescribes, and the line that spells it is well formed. -/

namespace Sys2Proof.Laws.TableRow

/-- R41, R42, R49: the command's word matches a row of its own mnemonic, and its line is one the assembler accepts. -/
def Statement (i : Instr) : Prop :=
  (∃ row ∈ opcodeTable, row.mnemonic = i.mnemonic ∧ row.matchesWord (encode i)) ∧ i.wellFormed = true

/-- A word of format A under the format's mask. -/
theorem mask_wordA (op : Byte) (v : Byte) : wordA op v &&& 0xFF00FFFF = wordA op 0 := by
  apply BitVec.eq_of_getLsbD_eq
  intro i hi
  simp only [wordA, BitVec.getLsbD_and, BitVec.getLsbD_append]
  interval_cases i <;> simp

/-- A word of format B under the format's mask. -/
theorem mask_wordB (op : Byte) (v : Byte) : wordB op v &&& 0xFFFFFF00 = wordB op 0 := by
  apply BitVec.eq_of_getLsbD_eq
  intro i hi
  simp only [wordB, BitVec.getLsbD_and, BitVec.getLsbD_append]
  interval_cases i <;> simp

/-- A word of format H under the format's mask. -/
theorem mask_wordH (op : Byte) (v : Half) : wordH op v &&& 0xFFFF0000 = wordH op 0 := by
  apply BitVec.eq_of_getLsbD_eq
  intro i hi
  simp only [wordH, BitVec.getLsbD_and, BitVec.getLsbD_append]
  interval_cases i <;> simp

theorem sysNop : Statement .sysNop := by unfold Statement; decide

theorem sysRd (r : Byte) : Statement (.sysRd r) := by
  refine ⟨⟨⟨"SYS.RD", 0x01000000, 0xFF00FFFF⟩, by decide, rfl, ?_⟩, ?_⟩
  · exact (mask_wordA _ r).trans (by decide)
  · exact decide_eq_true r.isLt

theorem sysClrerr : Statement .sysClrerr := by unfold Statement; decide

theorem sysRst : Statement .sysRst := by unfold Statement; decide

theorem ckClr : Statement .ckClr := by unfold Statement; decide

theorem ckPutb (b : Byte) : Statement (.ckPutb b) := by
  refine ⟨⟨⟨"CK.PUTB", 0x11000000, 0xFFFFFF00⟩, by decide, rfl, ?_⟩, ?_⟩
  · exact (mask_wordB _ b).trans (by decide)
  · exact decide_eq_true b.isLt

theorem ckPuth (h : Half) : Statement (.ckPuth h) := by
  refine ⟨⟨⟨"CK.PUTH", 0x12000000, 0xFFFF0000⟩, by decide, rfl, ?_⟩, ?_⟩
  · exact (mask_wordH _ h).trans (by decide)
  · exact decide_eq_true h.isLt

theorem ckFin : Statement .ckFin := by unfold Statement; decide

theorem ckPkt : Statement .ckPkt := by unfold Statement; decide

theorem emNew (ident : Half) : Statement (.emNew ident) := by
  refine ⟨⟨⟨"EM.NEW", 0x20000000, 0xFFFF0000⟩, by decide, rfl, ?_⟩, ?_⟩
  · exact (mask_wordH _ ident).trans (by decide)
  · exact decide_eq_true ident.isLt

theorem emPayb (b : Byte) : Statement (.emPayb b) := by
  refine ⟨⟨⟨"EM.PAYB", 0x21000000, 0xFFFFFF00⟩, by decide, rfl, ?_⟩, ?_⟩
  · exact (mask_wordB _ b).trans (by decide)
  · exact decide_eq_true b.isLt

theorem emSer : Statement .emSer := by unfold Statement; decide

theorem ldPkt (a : Half) : Statement (.ldPkt a) := by
  refine ⟨⟨⟨"LD.PKT", 0x30000000, 0xFFFF0000⟩, by decide, rfl, ?_⟩, ?_⟩
  · exact (mask_wordH _ a).trans (by decide)
  · exact decide_eq_true a.isLt

theorem ldPay (a : Half) : Statement (.ldPay a) := by
  refine ⟨⟨⟨"LD.PAY", 0x31000000, 0xFFFF0000⟩, by decide, rfl, ?_⟩, ?_⟩
  · exact (mask_wordH _ a).trans (by decide)
  · exact decide_eq_true a.isLt

theorem nrAdrh (v : Half) : Statement (.nrAdrh v) := by
  refine ⟨⟨⟨"NR.ADRH", 0x40000000, 0xFFFF0000⟩, by decide, rfl, ?_⟩, ?_⟩
  · exact (mask_wordH _ v).trans (by decide)
  · exact decide_eq_true v.isLt

theorem nrAdrl (v : Half) : Statement (.nrAdrl v) := by
  refine ⟨⟨⟨"NR.ADRL", 0x41000000, 0xFFFF0000⟩, by decide, rfl, ?_⟩, ?_⟩
  · exact (mask_wordH _ v).trans (by decide)
  · exact decide_eq_true v.isLt

theorem nrDerive (p : Byte) : Statement (.nrDerive p) := by
  refine ⟨⟨⟨"NR.DERIVE", 0x42000000, 0xFF00FFFF⟩, by decide, rfl, ?_⟩, ?_⟩
  · exact (mask_wordA _ p).trans (by decide)
  · exact decide_eq_true p.isLt

theorem nrNext : Statement .nrNext := by unfold Statement; decide

end Sys2Proof.Laws.TableRow
end

