-- ==== Sys2Proof/Tests/Slice0.lean ====
section
/-! SUPPORT. Tests, each of one word, one line or one command, with results taken from the spec (95_test_vectors.md unless another place is
named), and after them the witnesses: concrete states and operands that meet the hypotheses of the statements. -/

namespace Sys2Proof.Tests

open Sys2Proof Sys2Proof.Machine

/-! ### Helpers -/

/-- The next state, if there is one. -/
def nextOf : Host.Outcome State Fault Refusal → Option State
  | .next t => some t
  | _ => none

/-- The response of an outcome. -/
def rspOf (o : Host.Outcome State Fault Refusal) : Option Response := (nextOf o).bind fun t => t.host.rsp

/-- The response `(code, val)`. -/
def rsp (code : Byte) (val : Word) : Option Response := some { code := code, val := val }

/-- Reset, with another checksum unit. -/
def withCk (c : CkUnit) : State := { State.reset with ck := c }

/-- Reset with capacity 4. -/
def small : State := State.resetWith { payMax := 4 }

/-- The message of V-EM-7, full at capacity 4: payload 01 02 03 04. -/
def fullSmall : State :=
  { small with em := { EmUnit.reset with plen := 4, pay := [(0, 1), (1, 2), (2, 3), (3, 4)] } }

/-- The state of V-EM-2 before EM.SER: payload 61 62 63 64. -/
def abcd : State :=
  { State.reset with em := { EmUnit.reset with plen := 4, pay := [(0, 0x61), (1, 0x62), (2, 0x63), (3, 0x64)] } }

/-- The state after `EM.SER` straight after reset (V-EM-8, V-EM-1). -/
def served : State :=
  { State.reset with
    ck := { acc := 0x800, hold := 0, odd := false, csum := 0xF7FF, z := false }
    em := { EmUnit.reset with emck := 0xF7FF, pklen := 8, pkt := [(0, 8), (2, 0xF7), (3, 0xFF)] } }

/-- The range unit of V-NR-7, 192.168.1.13/30, freshly derived. -/
def range30 : NrUnit :=
  { addr := 0xC0A8010D, pfx := 30, rbytes := 3, rbits := 6, startA := 0xC0A80101, endA := 0xC0A80102, cur := 1, rvalid := true,
    done := false }

/-- A state with the given range unit. -/
def withNr (n : NrUnit) : State := { State.reset with nr := n }

/-- Reset with an address loaded. -/
def withAddr (a : Word) : State := withNr { NrUnit.reset with addr := a }

/-- Reset, the host presenting one input next. -/
def presenting (x : HostInput) : State :=
  { State.reset with host := { State.reset.host with program := [x] } }

/-! ### Well-formedness (R42, R49): the assembler refuses what does not fit -/

theorem test_refuse_byte_operand_too_large : AsmLine.wellFormed ⟨"CK.PUTB", some 256⟩ = false := by decide
theorem test_refuse_register_too_large : AsmLine.wellFormed ⟨"SYS.RD", some 256⟩ = false := by decide
theorem test_refuse_halfword_too_large : AsmLine.wellFormed ⟨"LD.PKT", some 65536⟩ = false := by decide
theorem test_refuse_missing_operand : AsmLine.wellFormed ⟨"NR.DERIVE", none⟩ = false := by decide
theorem test_refuse_operand_of_format_z : AsmLine.wellFormed ⟨"CK.FIN", some 0⟩ = false := by decide
theorem test_refuse_unknown_mnemonic : AsmLine.wellFormed ⟨"CK.SUB", none⟩ = false := by decide
theorem test_accept_largest_operands :
    (AsmLine.wellFormed ⟨"CK.PUTB", some 255⟩ && AsmLine.wellFormed ⟨"EM.NEW", some 65535⟩) = true := by decide

/-! ### The assembler (R49, R50) -/

theorem test_assemble_line_with_comment :
    assembleText "CK.PUTB 0x08 ; -> (0, 0)".toList = .commands [.ckPutb 8] := by decide
theorem test_assemble_rejects_256 : assembleText "CK.PUTB 256".toList = .rejected .badOperand := by decide
theorem test_assemble_sum : assembleText "CK.SUM 8, 0".toList = .commands [.ckClr, .ckPutb 8, .ckPutb 0, .ckFin] := by decide
theorem test_assemble_request : assembleText "EM.REQ 0, 0x61, 0x62".toList = .commands [.emNew 0, .emPayb 0x61, .emPayb 0x62] := by
  decide
/-- S3: the commands of `NR.RANGE 192.168.1.13/24`. -/
theorem test_assemble_range :
    assembleText "NR.RANGE 192.168.1.13/24".toList = .commands [.nrAdrh 0xC0A8, .nrAdrl 0x010D, .nrDerive 24] := by decide
/-- R49's hexadecimal form for the prefix length (log entry 9). -/
theorem test_assemble_range_hexadecimal :
    assembleText "NR.RANGE 192.168.1.13/0x18".toList = .commands [.nrAdrh 0xC0A8, .nrAdrl 0x010D, .nrDerive 24] := by decide
/-- Any number of blanks before an operand, and one before a comment (log entry 9). -/
theorem test_assemble_blanks : assembleText "SYS.RD   4 ; x".toList = .commands [.sysRd 4] := by decide
theorem test_assemble_two_lines :
    assembleProgram "NR.DERIVE 24\nSYS.RD 4".toList = .commands [.nrDerive 24, .sysRd 4] := by decide

/-! ### Decoding: the words of R41, bit by bit, one or more per constructor -/

theorem test_decode_nop : decode 0x00000000 = .command .sysNop := by decide
theorem test_decode_rd : decode 0x01130000 = .command (.sysRd 19) := by decide
theorem test_decode_clrerr : decode 0x02000000 = .command .sysClrerr := by decide
theorem test_decode_rst : decode 0x03000000 = .command .sysRst := by decide
theorem test_decode_clr : decode 0x10000000 = .command .ckClr := by decide
theorem test_decode_putb : decode 0x110000AB = .command (.ckPutb 0xAB) := by decide
theorem test_decode_puth : decode 0x1200ABCD = .command (.ckPuth 0xABCD) := by decide
theorem test_decode_fin : decode 0x13000000 = .command .ckFin := by decide
theorem test_decode_pkt : decode 0x14000000 = .command .ckPkt := by decide
theorem test_decode_new : decode 0x20001234 = .command (.emNew 0x1234) := by decide
theorem test_decode_payb : decode 0x21000068 = .command (.emPayb 0x68) := by decide
theorem test_decode_ser : decode 0x22000000 = .command .emSer := by decide
theorem test_decode_ldpkt : decode 0x3000000C = .command (.ldPkt 12) := by decide
theorem test_decode_ldpay : decode 0x31000002 = .command (.ldPay 2) := by decide
theorem test_decode_adrh : decode 0x4000C0A8 = .command (.nrAdrh 0xC0A8) := by decide
theorem test_decode_adrl : decode 0x4100010D = .command (.nrAdrl 0x010D) := by decide
theorem test_decode_derive : decode 0x42190000 = .command (.nrDerive 25) := by decide
theorem test_decode_next : decode 0x43000000 = .command .nrNext := by decide
/-- V-ENC-2 to V-ENC-5. -/
theorem test_decode_undefined_opcodes :
    (decode 0xFFFFFFFF, decode 0x04000000, decode 0x15000000, decode 0x44000000) =
      (.illegal .undefinedOpcode, .illegal .undefinedOpcode, .illegal .undefinedOpcode, .illegal .undefinedOpcode) := by decide
/-- V-ENC-6 to V-ENC-9. -/
theorem test_decode_reserved_bits_z_and_b :
    (decode 0x13000001, decode 0x13010000, decode 0x11000100, decode 0x110100AB) =
      (.illegal .reservedBit, .illegal .reservedBit, .illegal .reservedBit, .illegal .reservedBit) := by decide
/-- V-ENC-11, V-ENC-13, V-ENC-19. -/
theorem test_decode_reserved_bits_h_and_a :
    (decode 0x1201ABCD, decode 0x42180001, decode 0x03000001) =
      (.illegal .reservedBit, .illegal .reservedBit, .illegal .reservedBit) := by decide
theorem test_encode_derive : encode (.nrDerive 31) = 0x421F0000 := by decide
theorem test_table_word : decodeTableWord 32 0x42190000 = some (.nrDerive 25) := by decide

/-! ### The step -/

theorem test_step_runs_the_fetched_word : rspOf (step (State.reset.withFetchWord 32 0x22000000)) = rsp 0 0xF7FF := by decide
/-- V-ENC-19: an illegal SYS.RST resets nothing and records code 3. -/
theorem test_step_illegal_word :
    (nextOf (step ({ withAddr 5 with host := ⟨[.command 0x03000001], 0, none⟩ }))).map
      (fun t => (t.host.rsp, t.err, t.nr.addr, t.host.pc)) = some (rsp 3 0, 3, 5, 1) := by decide
/-- R101. -/
theorem test_step_reset_input :
    (nextOf (step { withAddr 5 with host := ⟨[.resetInput], 0, rsp 0 0⟩ })).map
      (fun t => (t.nr.addr, t.host.rsp, t.host.pc)) = some (0, none, 1) := by decide

/-! ### SYS and LD -/

theorem test_nop_keeps_err : (nextOf (exec .sysNop { State.reset with err := 5 })).map (fun t => t.err) = some 5 := by decide
/-- V-SYS-1: `CAP` and `EMTYPE`. -/
theorem test_rd_hardwired : (rspOf (exec (.sysRd 19) State.reset), rspOf (exec (.sysRd 5) State.reset)) = (rsp 0 64, rsp 0 8) := by
  decide
/-- V-SYS-2. -/
theorem test_rd_20 : (nextOf (exec (.sysRd 20) State.reset)).map (fun t => (t.host.rsp, t.err)) = some (rsp 5 0, 5) := by decide
/-- P2 step 18: `ODD`, `Z` and `EF`. -/
theorem test_rd_status :
    rspOf (exec (.sysRd 0) { withCk ⟨0x190FF, 0x6F, true, 0, true⟩ with err := 5 }) = rsp 0 0x13 := by decide
theorem test_clrerr : (nextOf (exec .sysClrerr { State.reset with err := 2 })).map (fun t => (t.host.rsp, t.err)) = some (rsp 0 0, 0) := by
  decide
/-- R86, V-SYS-5. -/
theorem test_rst :
    (nextOf (exec .sysRst { served with err := 5, nr := range30 })).map (fun t => (t.host.rsp, t.err, t.em.pklen, t.nr, t.ck.csum)) =
      some (rsp 0 0, 0, 0, NrUnit.reset, 0) := by decide
/-- R87's example. -/
theorem test_ldpkt : (rspOf (exec (.ldPkt 2) served), rspOf (exec (.ldPkt 7) served), rspOf (exec (.ldPkt 8) served)) =
    (rsp 0 0xF7, rsp 0 0, rsp 5 0) := by decide
/-- V-LD-2. -/
theorem test_ldpay : (rspOf (exec (.ldPay 3) abcd), rspOf (exec (.ldPay 4) abcd)) = (rsp 0 0x64, rsp 5 0) := by decide

/-! ### CK -/

/-- R53's example. -/
theorem test_clr_keeps_csum :
    (nextOf (exec .ckClr (withCk ⟨0x1234, 0x56, true, 0x97CB, false⟩))).map (fun t => t.ck) = some ⟨0, 0, false, 0x97CB, false⟩ := by
  decide
/-- R54's example, first byte. -/
theorem test_putb_even : (nextOf (exec (.ckPutb 0x12) State.reset)).map (fun t => t.ck) = some ⟨0, 0x12, true, 0, false⟩ := by decide
/-- V-CK-20, second byte: the accumulator wraps. -/
theorem test_putb_odd_wraps :
    (nextOf (exec (.ckPutb 0x34) (withCk ⟨0xFFFFFF00, 0x12, true, 0, false⟩))).map (fun t => t.ck) =
      some ⟨0x00001134, 0, false, 0, false⟩ := by decide
/-- V-CK-17. -/
theorem test_puth_even : (nextOf (exec (.ckPuth 0x1234) State.reset)).map (fun t => t.ck) = some ⟨0x1234, 0, false, 0, false⟩ := by
  decide
/-- V-CK-18. -/
theorem test_puth_odd :
    (nextOf (exec (.ckPuth 0x1234) (withCk ⟨0, 0xAB, true, 0, false⟩))).map (fun t => t.ck) =
      some ⟨0xAB12, 0x34, true, 0, false⟩ := by decide
/-- V-CK-21. -/
theorem test_fin_wraps :
    (nextOf (exec .ckFin (withCk ⟨0xFFFFFFFF, 0xFF, true, 0, false⟩))).map (fun t => (t.host.rsp, t.ck)) =
      some (rsp 0 0x0100, ⟨0xFFFFFFFF, 0xFF, true, 0x0100, false⟩) := by decide
/-- V-CK-5: the result zero sets `Z`. -/
theorem test_fin_zero :
    (nextOf (exec .ckFin (withCk ⟨0xFFFF, 0, false, 0, false⟩))).map (fun t => (t.host.rsp, t.ck.z)) = some (rsp 0 0, true) := by decide
/-- V-CK-23. -/
theorem test_pkt_empty : rspOf (exec .ckPkt State.reset) = rsp 0 0xFFFF := by decide
/-- R57's example. -/
theorem test_pkt_verifies :
    (nextOf (exec .ckPkt served)).map (fun t => (t.host.rsp, t.ck)) = some (rsp 0 0, ⟨0xFFFF, 0, false, 0, true⟩) := by decide

/-! ### EM -/

/-- V-EM-10. -/
theorem test_new :
    (nextOf (exec (.emNew 7) { served with em := { served.em with plen := 3, pay := [(0, 1)] } })).map
      (fun t => (t.em.emid, t.em.emck, t.em.plen, t.em.pklen)) = some (7, 0, 0, 8) := by decide
/-- R64: the bytes of `PAY` are not erased. -/
theorem test_new_keeps_bytes :
    (nextOf (exec (.emNew 7) { served with em := { served.em with plen := 3, pay := [(0, 1)] } })).map
      (fun t => t.em.pay) = some [(0, 1)] := by decide
/-- R65's example. -/
theorem test_payb :
    (nextOf (exec (.emPayb 0x61) State.reset)).map (fun t => (t.em.plen, t.em.pay, t.host.rsp)) = some (1, [(0, 0x61)], rsp 0 0) := by
  decide
/-- V-EM-7. -/
theorem test_payb_full :
    (nextOf (exec (.emPayb 5) fullSmall)).map (fun t => (t.host.rsp, t.err, t.em.plen)) = some (rsp 4 0, 4, 4) := by decide
/-- V-EM-2. -/
theorem test_ser :
    (nextOf (exec .emSer abcd)).map (fun t => (t.em.packet, t.host.rsp)) =
      some ([0x08, 0x00, 0x33, 0x39, 0, 0, 0, 0, 0x61, 0x62, 0x63, 0x64], rsp 0 0x3339) := by decide
/-- V-EM-6: an odd length. -/
theorem test_ser_odd :
    (nextOf (exec .emSer { State.reset with em := { EmUnit.reset with plen := 1, pay := [(0, 0xFF)] } })).map
      (fun t => (t.em.pklen, t.host.rsp, t.ck.acc, t.ck.hold, t.ck.odd)) = some (9, rsp 0 0xF8FF, 0x800, 0xFF, true) := by decide

/-! ### NR -/

/-- V-NR-29. -/
theorem test_adrh : (nextOf (exec (.nrAdrh 0x0A00) (withNr range30))).map (fun t => (t.nr.addr, t.nr.cur)) = some (0x0A00010D, 1) := by
  decide
/-- R73's example. -/
theorem test_adrl : (nextOf (exec (.nrAdrl 0x010D) (withAddr 0xC0A80000))).map (fun t => t.nr.addr) = some 0xC0A8010D := by decide
/-- S4. -/
theorem test_derive_25 :
    (nextOf (exec (.nrDerive 25) (withAddr 0xC0A8010D))).map (fun t => t.nr) =
      some ⟨0xC0A8010D, 25, 3, 1, 0xC0A80101, 0xC0A8017E, 1, true, false⟩ := by decide
/-- V-NR-8: prefix length 31 is an empty range. -/
theorem test_derive_31 :
    (nextOf (exec (.nrDerive 31) (withAddr 0xC0A8010D))).map (fun t => (t.nr.endA, t.nr.rbits, t.nr.done)) =
      some (0xC0A80100, 7, true) := by decide
/-- P3 step 7. -/
theorem test_next :
    (nextOf (exec .nrNext (withNr range30))).map (fun t => (t.host.rsp, t.nr.cur, t.nr.done)) = some (rsp 0 0xC0A80101, 2, false) := by
  decide
/-- V-NR-24: the last octet is given without an increment. -/
theorem test_next_last :
    (nextOf (exec .nrNext (withNr { range30 with startA := 0xC0A801FF, endA := 0xC0A801FF, cur := 255, pfx := 32 }))).map
      (fun t => (t.host.rsp, t.nr.cur, t.nr.done)) = some (rsp 0 0xC0A801FF, 255, true) := by decide

/-- R100: a host that issues NR.NEXT after a transport failure, or retries a refused derivation, does not keep the rule; one that derives
with another prefix length does. -/
theorem test_host_rule :
    (hostKeepsR100 ⟨[], false⟩ [.transportFailure, .presents (.command 0x43000000)] (withNr range30),
      hostKeepsR100 ⟨[], false⟩ [.presents (.command 0x42210000), .presents (.command 0x42210000)] State.reset,
      hostKeepsR100 ⟨[], false⟩
        [.presents (.command 0x42210000), .presents (.command 0x42180000), .presents (.command 0x43000000)] State.reset) =
      (false, false, true) := by decide

/-! ### Witnesses: states and operands that meet the hypotheses of the statements -/

theorem witness_StepExecutesTheDecodedCommand :
    (presenting (.command 0x42190000)).host.program[(presenting (.command 0x42190000)).host.pc]? = some (.command 0x42190000) ∧
      decode 0x42190000 = .command (.nrDerive 25) := by decide

/-- The execution clause of LegalWordsAreTheTableRows, one illegal word of each kind. -/
theorem witness_LegalWordsAreTheTableRows :
    (presenting (.command 0x13000001)).nextInput = some (.command 0x13000001) ∧ decode 0x13000001 = .illegal .reservedBit ∧
      (presenting (.command 0x04000000)).nextInput = some (.command 0x04000000) ∧ decode 0x04000000 = .illegal .undefinedOpcode ∧
      decode 0x43000000 = .command .nrNext := by decide

theorem witness_EncodeOfDecode : decode 0x11000000 = .command (.ckPutb 0) ∧ decode 0x3000FFFF = .command (.ldPkt 0xFFFF) := by decide

theorem witness_AssemblerAcceptsWhatFits : (AsmLine.mk "CK.PUTB" (some 255)).assemble = .commands [.ckPutb 255] := by decide

theorem witness_PseudoCommandExpansions : ([0, 255] : List Byte) ≠ [] := by decide

theorem witness_ResetInputAndResetCommandAgree : (presenting .resetInput).nextInput = some .resetInput := by decide

theorem witness_CoreWaitsWithoutInput : State.reset.nextInput = none := by decide

/-- Each clause of PositionAdvancesAndIsNeverRead: a command answered, one that fails, and the reset input. -/
theorem witness_PositionAdvancesAndIsNeverRead :
    (nextOf (step (presenting (.command 0x43000000)))).map (fun t => (t.host.pc, t.host.rsp)) = some (1, rsp 6 0) ∧
      (nextOf (step (presenting .resetInput))).isSome = true ∧ (nextOf (exec .sysNop State.reset)).isSome = true := by decide

/-- The checksum unit of `served` is good. -/
theorem served_ck_good : served.ck.Good := ⟨by decide, by decide⟩

/-- A memory of `served` reads as unwritten from 8 on. -/
theorem served_pkt_outside (a : Nat) (h : 8 ≤ a) : served.em.pkt.read a = unwritten := by
  simp only [served, Memory.read]
  rw [if_neg (by omega), if_neg (by omega), if_neg (by omega)]

/-- A state with a packet, a current `EMCK` and no range meets the invariant. -/
theorem witness_State_Inv : served.Inv where
  ck_good := served_ck_good
  em_good :=
    { plen_le := by decide
      emseq_zero := by decide
      pklen_shape := by decide
      pay_wf := by decide
      pkt_wf := by decide
      pay_inside := fun _ _ => rfl
      pkt_inside := fun a h => served_pkt_outside a (by omega)
      packet_shape := fun _ => ⟨⟨0xF7FF, [], by decide⟩, by decide⟩
      emck_current := fun _ => by decide }
  nr_good :=
    { pfx_parts := by decide
      pfx_range := by decide
      valid_derived := by decide
      range_derived := fun h => absurd rfl h
      range_reset := fun _ => by decide
      cur_inside := by decide
      cur_done := by decide }
  err_legal := by decide

/-- The range unit of V-NR-7 is good: the premise of the last clause of NextGivesTheNextAddress, in a state where NR.NEXT increments. -/
theorem witness_NrUnit_Good : range30.Good ∧ range30.rvalid = true ∧ range30.done = false ∧ range30.cur ≠ hostOctet range30.endA :=
  ⟨{ pfx_parts := by decide
     pfx_range := by decide
     valid_derived := by decide
     range_derived := fun _ => ⟨0xC0A8010D, by decide⟩
     range_reset := fun h => absurd h (by decide)
     cur_inside := by decide
     cur_done := by decide }, by decide⟩

/-- EveryStepKeepsTheMachineInvariant, NothingStopsTheCore and TwelveCommandsCannotFail have the premise `Inv`; a step from `served`. -/
theorem witness_EveryStepKeepsTheMachineInvariant : served.Inv ∧ (nextOf (step served)).isSome = true :=
  ⟨witness_State_Inv, by decide⟩

theorem witness_TwelveCommandsCannotFail :
    served.Inv ∧ (rspOf (exec .emSer served), rspOf (exec .ckPkt served)) = (rsp 0 0xF7FF, rsp 0 0) :=
  ⟨witness_State_Inv, by decide⟩

/-- RaiseChangesNothingElse: a failing NR.DERIVE and another failing command. -/
theorem witness_RaiseChangesNothingElse :
    (rspOf (exec (.nrDerive 33) (withNr range30)), rspOf (exec .nrNext State.reset)) = (rsp 1 0, rsp 6 0) := by decide

/-- ErrorRecordIsSticky, EveryWordGetsOneResponse, ErrorCodesHaveTheirCauses: words that fail, succeed, clear and reset; the reset input;
no input. -/
theorem witness_ErrorRecordIsSticky :
    (rspOf (step (presenting (.command 0x43000000))), rspOf (step (presenting (.command 0x10000000))),
      rspOf (step (presenting (.command 0x02000000))), rspOf (step (presenting (.command 0x03000000)))) =
      (rsp 6 0, rsp 0 0, rsp 0 0, rsp 0 0) ∧
    (nextOf (step (presenting .resetInput))).isSome = true ∧ (nextOf (step State.reset)).isSome = true := by decide

/-- ErrorCodesHaveTheirCauses: every code, at the boundary of its cause. -/
theorem witness_ErrorCodesHaveTheirCauses :
    [rspOf (exec (.nrDerive 33) State.reset), rspOf (exec (.nrDerive 23) State.reset), rspOf (exec (.emPayb 0) fullSmall),
      rspOf (exec (.sysRd 20) State.reset), rspOf (exec (.ldPkt 8) served), rspOf (exec (.ldPay 4) abcd),
      rspOf (exec .nrNext State.reset), rspOf (exec .nrNext (withNr { range30 with done := true }))] =
      [rsp 1 0, rsp 2 0, rsp 4 0, rsp 5 0, rsp 5 0, rsp 5 0, rsp 6 0, rsp 7 0] := by decide

/-- WritesByCommand: a success and a failure. -/
theorem witness_WritesByCommand :
    (rspOf (exec (.emPayb 9) abcd), rspOf (exec (.emPayb 9) fullSmall)) = (rsp 0 0, rsp 4 0) := by decide

/-- SysRdReadsTheNumberedRegister: registers 0 and 19 are listed, 20 is above. -/
theorem witness_SysRdReadsTheNumberedRegister :
    ((0 : Byte).toNat, statusNat served) ∈ registerValues served ∧ ((19 : Byte).toNat, 64) ∈ registerValues served ∧
      19 < (20 : Byte).toNat := by decide

/-- WindowedLoads: the last readable byte and the first unreadable one of each window. -/
theorem witness_WindowedLoads :
    served.em.pklen.toNat ≤ (8 : Half).toNat ∧ (7 : Half).toNat < served.em.pklen.toNat ∧
      served.em.pklen.toNat ≤ served.cfg.payMax.val + 8 ∧
      fullSmall.em.plen.toNat ≤ (4 : Half).toNat ∧ (3 : Half).toNat < fullSmall.em.plen.toNat ∧
      fullSmall.em.plen.toNat ≤ fullSmall.cfg.payMax.val := by decide

theorem witness_CapacityIsConstant : (nextOf (step served)).isSome = true := by decide

/-- A byte beyond the window that makes `served` differ from itself where no host can see it. -/
def servedStale : State := { served with em := { served.em with pay := [(0, 0xAA)] } }

theorem servedStale_Inv : servedStale.Inv where
  ck_good := served_ck_good
  em_good :=
    { witness_State_Inv.em_good with
      pay_wf := by decide
      pay_inside := fun a h => by
        have h64 : (64 : Nat) ≤ a := h
        show Memory.read [(0, 0xAA)] a = unwritten
        rw [Memory.read_cons, if_neg (by omega)]; rfl
      emck_current := fun _ => by decide }
  nr_good := witness_State_Inv.nr_good
  err_legal := by decide

theorem witness_BytesOutsideTheWindowsAreUnobservable :
    served.Inv ∧ servedStale.Inv ∧ Indistinguishable served servedStale ∧ served ≠ servedStale ∧
      (nextOf (step served)).isSome = true :=
  ⟨witness_State_Inv, servedStale_Inv,
    ⟨rfl, rfl, rfl, rfl, rfl, rfl, fun a h => absurd h (Nat.not_lt_zero a), fun _ _ => rfl⟩, by decide, by decide⟩

/-- EveryCommandKeepsTheStream, FinalisationGivesTheStreamsChecksum: a unit holding the odd stream of V-CK-4, canonical memory. -/
theorem witness_Streams :
    Streams (withCk ⟨0x1234, 0x56, true, 0, false⟩).ck [0x12, 0x34, 0x56] ∧
      (withCk ⟨0x1234, 0x56, true, 0, false⟩).em.pkt.wf = true ∧
      (nextOf (exec (.ckPuth 0x789A) (withCk ⟨0x1234, 0x56, true, 0, false⟩))).isSome = true :=
  ⟨⟨by decide, by decide, by decide⟩, by decide, by decide⟩

theorem witness_AccumulatorIsExactUpTo131074Bytes : ([0x12, 0x34, 0x56] : List Byte).length ≤ 131074 := by decide

/-- CkPutbPushesOneByte, CkPuthPushesTwoBytes: both phases. -/
theorem witness_CkPutbPushesOneByte : State.reset.ck.odd = false ∧ (withCk ⟨0, 0xAB, true, 0, false⟩).ck.odd = true := by decide

theorem witness_CkPktSumsThePacket :
    served.em.pklen.toNat ≤ served.cfg.payMax.val + 8 ∧ State.reset.em.pklen.toNat ≤ State.reset.cfg.payMax.val + 8 := by decide

theorem witness_SelfVerification :
    ([8, 0, 0, 0, 0xFF] : List Byte)[2 * 1]? = some 0 ∧ ([8, 0, 0, 0, 0xFF] : List Byte)[2 * 1 + 1]? = some 0 ∧
      abcd.em.pkt.wf = true ∧ (nextOf (exec .emSer abcd)).isSome = true := by decide

/-- TruncationAgainstFolding: a sum of 65535 and a sum of 65536 (V-CK-5, V-CK-7). -/
theorem witness_TruncationAgainstFolding :
    wsum [0xFF, 0xFF] < 65536 ∧ 65536 ≤ wsum [0xFF, 0xFF, 0x00, 0x01] ∧ wsum [0xFF, 0xFF, 0x00, 0x01] < 0xFFFF0000 := by decide

theorem witness_ChecksumUnitIsShared : (nextOf (exec .ckPkt served)).isSome = true := by decide

/-- EmPaybAppendsAByte: full, and one below full. -/
theorem witness_EmPaybAppendsAByte :
    fullSmall.em.plen.toNat = fullSmall.cfg.payMax.val ∧
      ({ fullSmall.em with plen := 3 } : EmUnit).plen.toNat < fullSmall.cfg.payMax.val ∧ fullSmall.em.pay.wf = true := by decide

/-- EmSerSerializesTheMessage: a full payload. -/
theorem witness_EmSerSerializesTheMessage :
    fullSmall.em.pkt.wf = true ∧ fullSmall.em.plen.toNat ≤ fullSmall.cfg.payMax.val := by decide

/-- IdentifierNeverReachesTheWire: two states with the same payload and different identifiers. -/
theorem witness_IdentifierNeverReachesTheWire :
    abcd.em.pkt.wf = true ∧ ({ abcd.em with emid := 7 } : EmUnit).pkt.wf = true ∧ abcd.em.plen = ({ abcd.em with emid := 7 } : EmUnit).plen ∧
      (nextOf (exec .emSer abcd)).isSome = true ∧ (nextOf (exec .emSer { abcd with em := { abcd.em with emid := 7 } })).isSome = true := by
  decide

theorem witness_OnlySerializationWritesThePacket :
    Instr.emNew 7 ≠ .emSer ∧ Instr.emNew 7 ≠ .sysRst ∧ (nextOf (exec (.emNew 7) served)).isSome = true := by decide

theorem witness_EchoCommandsBuildTheSourcesPacket :
    small.em.pay.wf = true ∧ small.em.pkt.wf = true ∧ ([1, 2, 3, 4] : List Byte).length ≤ small.cfg.payMax.val := by decide

/-- DeriveValidatesThenDerives: both sides of both bounds. -/
theorem witness_DeriveValidatesThenDerives :
    32 < (33 : Byte).toNat ∧ (23 : Byte).toNat < 24 ∧ 24 ≤ (24 : Byte).toNat ∧ (24 : Byte).toNat ≤ 32 ∧ 24 ≤ (32 : Byte).toNat ∧
      (32 : Byte).toNat ≤ 32 := by decide

/-- RangeIsOrderedExceptAt31, OwnHostOctetIsNotRead, IteratorGivesTheWholeSequence: derivations of 24, 31 and 32 answer. -/
theorem witness_RangeIsOrderedExceptAt31 :
    (rspOf (exec (.nrDerive 24) (withAddr 0xC0A8010D)), rspOf (exec (.nrDerive 31) (withAddr 0xC0A801C8)),
      rspOf (exec (.nrDerive 32) (withAddr 0xC0A801FF))) = (rsp 0 0, rsp 0 0, rsp 0 0) ∧ 256 ≤ 300 := by decide

/-- IteratorGivesTheWholeSequence, its second clause. -/
theorem witness_IteratorGivesTheWholeSequence : (nextOf (exec .emSer (withNr range30))).isSome = true := by decide

/-- NextGivesTheNextAddress: no range, done, at the last octet, before it. -/
theorem witness_NextGivesTheNextAddress :
    State.reset.nr.rvalid = false ∧ ({ range30 with done := true } : NrUnit).done = true ∧
      ({ range30 with cur := 2 } : NrUnit).cur = hostOctet range30.endA ∧ range30.cur ≠ hostOctet range30.endA := by decide

theorem witness_NothingStopsTheCore : served.Inv := witness_State_Inv

theorem witness_EveryWordGetsOneResponse :
    (presenting (.command 0xFFFFFFFF)).nextInput = some (.command 0xFFFFFFFF) ∧
      rspOf (step (presenting (.command 0xFFFFFFFF))) = rsp 3 0 := by decide

theorem witness_EveryCommandKeepsTheStream :
    served.em.pkt.wf = true ∧ Streams served.ck [8, 0] ∧ (nextOf (exec .ckPkt served)).isSome = true :=
  ⟨by decide, ⟨by decide, by decide, by decide⟩, by decide⟩

theorem witness_FinalisationGivesTheStreamsChecksum :
    Streams served.ck [8, 0] ∧ (nextOf (exec .ckFin served)).isSome = true := ⟨⟨by decide, by decide, by decide⟩, by decide⟩

/-- OwnHostOctetIsNotRead: two addresses of one network, and the two bounds of the prefix length. -/
theorem witness_OwnHostOctetIsNotRead :
    24 ≤ (24 : Byte).toNat ∧ (31 : Byte).toNat ≤ 31 ∧
      (rspOf (exec (.nrDerive 31) (withAddr 0xC0A80101)), rspOf (exec (.nrDerive 31) (withAddr 0xC0A801C8))) = (rsp 0 0, rsp 0 0) ∧
      ∀ k < 3, addrByte 0xC0A80101 k = addrByte 0xC0A801C8 k := by decide

/-- CoreKeepsCurAfterATransportFailure: the host reads a packet byte and loads another address after the failure, in the middle of a
sweep. -/
theorem witness_CoreKeepsCurAfterATransportFailure :
    let es : List HostEvent := [.presents (.command 0x30000000), .presents (.command 0x4000AC10)]
    let s := withNr { range30 with cur := 2 }
    hostKeepsR100 ⟨[], false⟩ (.transportFailure :: es) s = true ∧ (∀ e ∈ es, e.placesIterator = false) ∧
      (nextOf (deliverAll (.transportFailure :: es) s)).isSome = true := by decide

theorem witness_RefusedDerivationsDoNotStopTheCore :
    (nextOf (exec (.nrDerive 33) (withNr range30))).isSome = true ∧ (nextOf (exec (.nrDerive 23) (withNr range30))).isSome = true ∧
      State.reset.nr.rvalid = false ∧ derivedPrefix? .sysRst = none ∧ (nextOf (exec .sysRst State.reset)).isSome = true := by decide

/-- The per-instruction family holds of an instruction with an operand. -/
theorem witness_TableRow : Laws.TableRow.Statement (.nrDerive 32) := Laws.TableRow.nrDerive 32

end Sys2Proof.Tests
end

section
/-! PROOFS. Family 00_scope: the step by kind of input (O7), and that every step from a good state answers (O14). -/

namespace Sys2Proof.Machine

/-! ### The step, one equation per kind of input -/

/-- R4, R48: a legal word is executed with the host's position moved on. -/
theorem step_of_command {s : State} {w : Word} {i : Instr} (hn : s.nextInput = some (.command w)) (hd : decode w = .command i) :
    step s = exec i s.advance := by
  simp only [step, hn, hd]

/-- R44: an illegal word raises with the host's position moved on. -/
theorem step_of_illegal {s : State} {w : Word} {why : IllegalWord} (hn : s.nextInput = some (.command w))
    (hd : decode w = .illegal why) : step s = execIllegal s.advance := by
  simp only [step, hn, hd]

/-- R101: the reset input. -/
theorem step_of_resetInput {s : State} (hn : s.nextInput = some .resetInput) : step s = execResetInput s.advance := by
  simp only [step, hn]

/-- R102: nothing presented. -/
theorem step_of_noInput {s : State} (hn : s.nextInput = none) : step s = execWait s := by
  simp only [step, hn]

/-! ### What always answers -/

theorem respond_answers (v : Word) (s : State) : ∃ t, respond v s = .next t := ⟨_, rfl⟩

theorem complete_answers (s : State) : ∃ t, complete s = .next t := ⟨_, rfl⟩

theorem raise_answers (e : ErrorCode) (s : State) : ∃ t, raise e s = .next t := ⟨_, rfl⟩

theorem execSysRd_answers (r : Byte) (s : State) : ∃ t, execSysRd r s = .next t := by
  unfold execSysRd
  split
  · exact raise_answers _ s
  · exact respond_answers _ s

theorem execNrDerive_answers (p : Byte) (s : State) : ∃ t, execNrDerive p s = .next t := by
  unfold execNrDerive
  split
  · exact raise_answers _ _
  · split
    · exact raise_answers _ _
    · exact complete_answers _

theorem execNrNext_answers (s : State) : ∃ t, execNrNext s = .next t := by
  unfold execNrNext
  split
  · exact raise_answers _ s
  · split
    · exact raise_answers _ s
    · exact respond_answers _ _

/-! ### What answers while the readable windows lie inside the capacities -/

/-- R13, R31: `PLEN` and `PKLEN` are at most the capacities of `PAY` and `PKT`; this is all of the invariant that an access needs (R32). -/
structure State.WindowsFit (s : State) : Prop where
  plen_le : s.em.plen.toNat ≤ s.cfg.payMax.val
  pklen_le : s.em.pklen.toNat ≤ s.cfg.payMax.val + 8

theorem EmUnit.Good.pklen_le {payMax : Nat} {e : EmUnit} (h : e.Good payMax) : e.pklen.toNat ≤ payMax + 8 := by
  obtain hzero | ⟨-, hle⟩ := h.pklen_shape
  · simp [hzero]
  · exact hle

theorem State.Inv.windowsFit {s : State} (h : s.Inv) : s.WindowsFit := ⟨h.em_good.plen_le, h.em_good.pklen_le⟩

theorem State.WindowsFit.advance {s : State} (h : s.WindowsFit) : s.advance.WindowsFit := ⟨h.plen_le, h.pklen_le⟩

/-- A load inside its window is inside the capacity, and one outside it raises. -/
theorem loadByte_answers {sp : Space} {len : Half} {s : State} (h : len.toNat ≤ s.capacity sp) (a : Half) :
    ∃ t, loadByte sp len a s = .next t := by
  unfold loadByte
  split
  · exact raise_answers _ s
  next hout =>
    have hin : a.toNat + 1 ≤ len.toNat := BitVec.lt_def.mp (BitVec.not_le.mp hout)
    rw [guardCapacity_inside (hin.trans h)]
    exact respond_answers _ s

theorem execCkPkt_answers {s : State} (h : s.WindowsFit) : ∃ t, execCkPkt s = .next t := by
  unfold execCkPkt
  rw [guardCapacity_inside h.pklen_le]
  exact respond_answers _ _

/-- R65: a payload that is not full has room for one byte more. -/
theorem execEmPayb_answers {s : State} (h : s.WindowsFit) (b : Byte) : ∃ t, execEmPayb b s = .next t := by
  simp only [execEmPayb]
  split
  · exact raise_answers _ s
  next hroom =>
    have hnext : s.em.plen.toNat + 1 ≤ s.capacity .pay := Nat.lt_of_le_of_ne h.plen_le hroom
    rw [guardCapacity_inside hnext]
    exact complete_answers _

/-- R66: a payload that fits `PAY` fits `PKT` behind the eight bytes of the header. -/
theorem execEmSer_answers {s : State} (h : s.WindowsFit) : ∃ t, execEmSer s = .next t := by
  have hpkt : 8 + s.em.plen.toNat ≤ s.capacity .pkt := by
    rw [State.capacity_pkt, Nat.add_comm]
    exact Nat.add_le_add_right h.plen_le 8
  unfold execEmSer
  rw [guardCapacity_inside h.plen_le, guardCapacity_inside hpkt]
  exact respond_answers _ _

/-- R12(e), R89: every command answers. -/
theorem exec_answers {s : State} (h : s.WindowsFit) (i : Instr) : ∃ t, exec i s = .next t := by
  cases i with
  | sysRd r => exact execSysRd_answers r s
  | ckPkt => exact execCkPkt_answers h
  | emPayb b => exact execEmPayb_answers h b
  | emSer => exact execEmSer_answers h
  | ldPkt a => exact loadByte_answers h.pklen_le a
  | ldPay a => exact loadByte_answers h.plen_le a
  | nrDerive p => exact execNrDerive_answers p s
  | nrNext => exact execNrNext_answers s
  | ckFin => exact respond_answers _ _
  | sysNop | sysClrerr | sysRst | ckClr | ckPutb | ckPuth | emNew | nrAdrh | nrAdrl => exact complete_answers _

/-- Whatever the host presents is answered. -/
theorem step_answers {s : State} (h : s.WindowsFit) : ∃ t, step s = .next t := by
  match hn : s.nextInput with
  | none => exact ⟨_, step_of_noInput hn⟩
  | some .resetInput => exact ⟨_, step_of_resetInput hn⟩
  | some (.command w) =>
    match hd : decode w with
    | .command i =>
      rw [step_of_command hn hd]
      exact exec_answers h.advance i
    | .illegal _ => exact ⟨_, step_of_illegal hn hd⟩

/-- Settles O14: the invariant keeps the readable windows inside the capacities, and then every step answers. -/
theorem nothingStopsTheCore : Obligations.NothingStopsTheCore :=
  fun _ hinv => step_answers hinv.windowsFit

/-- Settles O7, by the step's equation for a legal word. -/
theorem stepExecutesTheDecodedCommand : Obligations.StepExecutesTheDecodedCommand :=
  fun _ _ _ hn hd => step_of_command hn hd

end Sys2Proof.Machine
end

section
/-! PROOFS. Family 10_state: what a command that answers has done (R30), and from it the frames (O10, O20, O26, O44) and the invariant of the
machine (O12, O13); the reset values and `STATUS` (O11, O23). -/

namespace Sys2Proof.Machine

/-! ### What a command that answers has done -/

/-- R66, steps 2 and 3: `PKT` with type, code, six zero bytes and the payload written. -/
def EmUnit.serialBuffer (e : EmUnit) : Memory := e.pkt.writeFrom 0 (unsummedPacket e)

/-- R66: the checksum unit after EM.SER. -/
def serialSum (s : State) : CkUnit := s.ck.sumBuffer (s.em.serialBuffer.slice (8 + s.em.plen.toNat))

/-- R64: the message after EM.NEW. -/
def EmUnit.renewed (e : EmUnit) (ident : Half) : EmUnit := { e with emid := ident, emseq := 0, emck := 0, plen := 0 }

/-- R65: the message with a byte appended. -/
def EmUnit.appended (e : EmUnit) (b : Byte) : EmUnit :=
  { e with pay := e.pay.write e.plen.toNat b, plen := e.plen + 1, emck := 0 }

/-- R66: message and packet after EM.SER, with checksum `c`. -/
def EmUnit.serialized (e : EmUnit) (c : Half) : EmUnit :=
  { e with pkt := e.serialBuffer.putChecksum c, pklen := BitVec.ofNat 16 (8 + e.plen.toNat), emck := c }

/-- R30, second column: the state a command leaves when it answers code 0, its response aside. -/
def effectOf (i : Instr) (s : State) : State :=
  match i with
  | .sysNop => s
  | .sysRd _ => s
  | .sysClrerr => { s with err := 0 }
  | .sysRst => resetCore s
  | .ckClr => { s with ck := s.ck.clear }
  | .ckPutb b => { s with ck := s.ck.pushByte b }
  | .ckPuth h => { s with ck := (s.ck.pushByte (hiByte h)).pushByte (loByte h) }
  | .ckFin => { s with ck := s.ck.finalise }
  | .ckPkt => { s with ck := s.ck.sumBuffer s.em.packet }
  | .emNew v => { s with em := s.em.renewed v }
  | .emPayb b => { s with em := s.em.appended b }
  | .emSer => { s with ck := serialSum s, em := s.em.serialized (serialSum s).csum }
  | .ldPkt _ => s
  | .ldPay _ => s
  | .nrAdrh v => { s with nr := { s.nr with addr := withAddrHigh s.nr.addr v } }
  | .nrAdrl v => { s with nr := { s.nr with addr := withAddrLow s.nr.addr v } }
  | .nrDerive p => { s with nr := s.nr.derived p }
  | .nrNext => { s with nr := s.nr.stepped }

/-- What an answer with code 0 says of the operand and of the state, for the commands whose effect is good only then. -/
def guardOf (i : Instr) (s : State) : Prop :=
  match i with
  | .emPayb _ => s.em.plen.toNat < s.cfg.payMax.val
  | .nrDerive p => 24 ≤ p.toNat ∧ p.toNat ≤ 32
  | .nrNext => s.nr.done = false
  | _ => True

/-- R74, R92: the state in which a failing command raises its error. -/
def beforeRaise (i : Instr) (s : State) : State :=
  match i with
  | .nrDerive _ => dropRange s
  | _ => s

theorem loadByte_fails_or_responds {sp : Space} {len a : Half} {s t : State} (h : loadByte sp len a s = .next t) :
    (∃ e, raise e s = .next t) ∨ ∃ v, respond v s = .next t := by
  obtain ⟨-, hfail⟩ | ⟨-, -, hok⟩ := loadByte_next.mp h
  · exact .inl ⟨_, hfail⟩
  · exact .inr ⟨_, hok⟩

theorem execSysRd_fails_or_responds {r : Byte} {s t : State} (h : execSysRd r s = .next t) :
    (∃ e, raise e s = .next t) ∨ ∃ v, respond v s = .next t := by
  unfold execSysRd at h
  split at h
  · exact .inl ⟨_, h⟩
  · exact .inr ⟨_, h⟩

theorem execEmPayb_fails_or_appends {b : Byte} {s t : State} (h : execEmPayb b s = .next t) :
    (∃ e, raise e s = .next t) ∨
      s.em.plen.toNat < s.cfg.payMax.val ∧ complete { s with em := s.em.appended b } = .next t := by
  simp only [execEmPayb] at h
  split at h
  · exact .inl ⟨_, h⟩
  · exact .inr (guardCapacity_next.mp h)

theorem execNrDerive_fails_or_derives {p : Byte} {s t : State} (h : execNrDerive p s = .next t) :
    (∃ e, raise e (dropRange s) = .next t) ∨
      (24 ≤ p.toNat ∧ p.toNat ≤ 32) ∧ complete { s with nr := s.nr.derived p } = .next t := by
  unfold execNrDerive at h
  split at h
  · exact .inl ⟨_, h⟩
  next hhigh =>
    split at h
    · exact .inl ⟨_, h⟩
    next hlow => exact .inr ⟨⟨BitVec.not_lt.mp hlow, BitVec.not_lt.mp hhigh⟩, h⟩

theorem execNrNext_fails_or_steps {s t : State} (h : execNrNext s = .next t) :
    (∃ e, raise e s = .next t) ∨
      s.nr.done = false ∧ ∃ v, respond v { s with nr := s.nr.stepped } = .next t := by
  unfold execNrNext at h
  split at h
  · exact .inl ⟨_, h⟩
  · split at h
    · exact .inl ⟨_, h⟩
    next hdone => exact .inr ⟨Bool.eq_false_of_not_eq_true hdone, _, h⟩

/-- R30, R92: a command that answers has either raised an error, which only the commands with a third column in R30 can, or responded with
code 0 after its effect. -/
theorem exec_next {i : Instr} {s t : State} (h : exec i s = .next t) :
    (.err ∈ writesOnFailure i ∧ ∃ e, raise e (beforeRaise i s) = .next t) ∨
      (guardOf i s ∧ ∃ v, respond v (effectOf i s) = .next t) := by
  cases i with
  | sysNop | sysClrerr | sysRst | ckClr | ckPutb | ckPuth | ckFin | emNew | nrAdrh | nrAdrl => exact .inr ⟨trivial, _, h⟩
  | ckPkt => exact .inr ⟨trivial, _, (guardCapacity_next.mp h).2⟩
  | emSer => exact .inr ⟨trivial, _, (guardCapacity_next.mp (guardCapacity_next.mp h).2).2⟩
  | sysRd r => exact (execSysRd_fails_or_responds h).imp (⟨.head _, ·⟩) (⟨trivial, ·⟩)
  | ldPkt a => exact (loadByte_fails_or_responds h).imp (⟨.head _, ·⟩) (⟨trivial, ·⟩)
  | ldPay a => exact (loadByte_fails_or_responds h).imp (⟨.head _, ·⟩) (⟨trivial, ·⟩)
  | emPayb b => exact (execEmPayb_fails_or_appends h).imp (⟨.head _, ·⟩) fun ⟨hroom, hok⟩ => ⟨hroom, 0, hok⟩
  | nrDerive p => exact (execNrDerive_fails_or_derives h).imp (⟨.head _, ·⟩) fun ⟨hp, hok⟩ => ⟨hp, 0, hok⟩
  | nrNext => exact (execNrNext_fails_or_steps h).imp (⟨.head _, ·⟩) id

/-- R3, R4: a step that answers has waited, reset the CORE, executed a command, or raised on an illegal word. -/
theorem step_next {s t : State} (h : step s = .next t) :
    (s.nextInput = none ∧ t = s.withRsp none) ∨ t = (resetCore s.advance).withRsp none ∨
      (∃ i, exec i s.advance = .next t) ∨ raise .illegalCommand s.advance = .next t := by
  match hn : s.nextInput with
  | none =>
    rw [step_of_noInput hn] at h
    cases h
    exact .inl ⟨rfl, rfl⟩
  | some .resetInput =>
    rw [step_of_resetInput hn] at h
    cases h
    exact .inr (.inl rfl)
  | some (.command w) =>
    match hd : decode w with
    | .command i => exact .inr (.inr (.inl ⟨i, (step_of_command hn hd).symm.trans h⟩))
    | .illegal why => exact .inr (.inr (.inr ((step_of_illegal hn hd).symm.trans h)))

/-! ### The configuration and the host's side -/

theorem effectOf_cfg (i : Instr) (s : State) : (effectOf i s).cfg = s.cfg := by cases i <;> rfl

theorem beforeRaise_cfg (i : Instr) (s : State) : (beforeRaise i s).cfg = s.cfg := by cases i <;> rfl

theorem exec_keeps_cfg {i : Instr} {s t : State} (h : exec i s = .next t) : t.cfg = s.cfg := by
  obtain ⟨-, e, he⟩ | ⟨-, v, hv⟩ := exec_next h
  · rw [raise_next.mp he]
    exact beforeRaise_cfg i s
  · rw [respond_next.mp hv]
    exact effectOf_cfg i s

/-- Settles O26: CAP is hardwired to the parameter, and no kind of step writes the configuration. -/
theorem capacityIsConstant : Obligations.CapacityIsConstant := by
  refine ⟨fun s => ⟨_, ⟨rfl, rfl⟩, rfl, rfl, rfl, rfl, rfl, ⟨rfl, rfl⟩, fun _ _ => rfl⟩, fun s t h => ?_⟩
  obtain ⟨-, rfl⟩ | rfl | ⟨i, hi⟩ | hraise := step_next h
  · rfl
  · rfl
  · exact (exec_keeps_cfg hi).trans s.advance_cfg
  · rw [raise_next.mp hraise]
    rfl

/-- The state with another host sequence and position. -/
def State.hostedAt (s : State) (prog : List HostInput) (n : Nat) : State :=
  { s with host := { s.host with program := prog, pc := n } }

/-- An outcome with its next state, if any, changed. -/
def mapNext (f : State → State) : Host.Outcome State Fault Refusal → Host.Outcome State Fault Refusal
  | .next t => .next (f t)
  | .fault r => .fault r
  | .refused r => .refused r

section
variable (s : State) (prog : List HostInput) (n : Nat)

theorem guardCapacity_hostedAt (sp : Space) (m : Nat) (k : Host.Outcome State Fault Refusal) :
    guardCapacity (s.hostedAt prog n) sp m (mapNext (·.hostedAt prog n) k) =
      mapNext (·.hostedAt prog n) (guardCapacity s sp m k) := by
  simp only [guardCapacity, apply_ite (mapNext _)]
  rfl

theorem loadByte_hostedAt (sp : Space) (len a : Half) :
    loadByte sp len a (s.hostedAt prog n) = mapNext (·.hostedAt prog n) (loadByte sp len a s) := by
  simp only [loadByte, apply_ite (mapNext _), ← guardCapacity_hostedAt]
  rfl

theorem execSysRd_hostedAt (r : Byte) :
    execSysRd r (s.hostedAt prog n) = mapNext (·.hostedAt prog n) (execSysRd r s) := by
  unfold execSysRd
  cases regOfIndex r <;> rfl

/-- R16: a command neither reads nor writes the host's sequence and position. -/
theorem exec_hostedAt (i : Instr) : exec i (s.hostedAt prog n) = mapNext (·.hostedAt prog n) (exec i s) := by
  cases i with
  | sysNop | sysClrerr | sysRst | ckClr | ckPutb | ckPuth | ckFin | emNew | nrAdrh | nrAdrl => rfl
  | sysRd r => exact execSysRd_hostedAt s prog n r
  | ldPkt a => exact loadByte_hostedAt s prog n .pkt s.em.pklen a
  | ldPay a => exact loadByte_hostedAt s prog n .pay s.em.plen a
  | ckPkt =>
    simp only [exec, execCkPkt, ← guardCapacity_hostedAt]
    rfl
  | emSer =>
    simp only [exec, execEmSer, ← guardCapacity_hostedAt]
    rfl
  | emPayb b =>
    simp only [exec, execEmPayb, apply_ite (mapNext _), ← guardCapacity_hostedAt]
    rfl
  | nrDerive p =>
    simp only [exec, execNrDerive, apply_ite (mapNext _)]
    rfl
  | nrNext =>
    simp only [exec, execNrNext, apply_ite (mapNext _)]
    rfl

end

/-- Executing from the state's own sequence and position leaves them in place. -/
theorem exec_keeps_host {i : Instr} {s t : State} (h : exec i s = .next t) : HostKept s t := by
  have hown := exec_hostedAt s s.host.program s.host.pc i
  rw [show s.hostedAt s.host.program s.host.pc = s from rfl, h] at hown
  have ht : t = t.hostedAt s.host.program s.host.pc := Host.Outcome.next.inj hown
  rw [ht]
  exact ⟨rfl, rfl⟩

/-- Settles O10: the position moves before the input is answered, and answering neither reads nor writes the host's side. -/
theorem positionAdvancesAndIsNeverRead : Obligations.PositionAdvancesAndIsNeverRead := by
  refine ⟨fun s t x hx h => ?_, fun _ _ _ => exec_keeps_host, fun i s t prog n h => ?_⟩
  · obtain ⟨hnone, -⟩ | rfl | ⟨i, hi⟩ | hraise := step_next h
    · simp [hx] at hnone
    · exact ⟨rfl, rfl⟩
    · exact (exec_keeps_host hi).symm
    · rw [raise_next.mp hraise]
      exact ⟨rfl, rfl⟩
  · exact (exec_hostedAt s prog n i).trans (congrArg (mapNext (·.hostedAt prog n)) h)

/-! ### Registers and bytes a command leaves alone -/

@[simp] theorem CkUnit.odd_pushByte (c : CkUnit) (b : Byte) : (c.pushByte b).odd = !c.odd := by
  unfold CkUnit.pushByte
  split <;> rfl

@[simp] theorem EmUnit.renewed_pklen (e : EmUnit) (v : Half) : (e.renewed v).pklen = e.pklen := rfl
@[simp] theorem EmUnit.appended_emid (e : EmUnit) (b : Byte) : (e.appended b).emid = e.emid := rfl
@[simp] theorem EmUnit.appended_emseq (e : EmUnit) (b : Byte) : (e.appended b).emseq = e.emseq := rfl
@[simp] theorem EmUnit.appended_pklen (e : EmUnit) (b : Byte) : (e.appended b).pklen = e.pklen := rfl
@[simp] theorem EmUnit.serialized_emid (e : EmUnit) (c : Half) : (e.serialized c).emid = e.emid := rfl
@[simp] theorem EmUnit.serialized_emseq (e : EmUnit) (c : Half) : (e.serialized c).emseq = e.emseq := rfl
@[simp] theorem EmUnit.serialized_plen (e : EmUnit) (c : Half) : (e.serialized c).plen = e.plen := rfl
@[simp] theorem NrUnit.derived_addr (n : NrUnit) (p : Byte) : (n.derived p).addr = n.addr := rfl

theorem NrUnit.stepped_last {n : NrUnit} (h : n.cur = hostOctet n.endA) : n.stepped = { n with done := true } := if_pos h

theorem NrUnit.stepped_before_last {n : NrUnit} (h : n.cur ≠ hostOctet n.endA) : n.stepped = { n with cur := n.cur + 1 } := if_neg h

/-- R79: the iterator moves `CUR` or sets `DONE`, and nothing else. -/
theorem NrUnit.stepped_frame (n : NrUnit) : ∃ cur done, n.stepped = { n with cur := cur, done := done } := by
  by_cases h : n.cur = hostOctet n.endA
  · exact ⟨_, _, stepped_last h⟩
  · exact ⟨_, _, stepped_before_last h⟩

theorem Piece.same_refl (x : Piece) (s : State) : x.same s s := by cases x <;> rfl

theorem Piece.same_withRsp (x : Piece) (s t : State) (r : Option Response) : x.same s (t.withRsp r) ↔ x.same s t := by
  cases x <;> rfl

/-- Writing `ERR` is seen in `ERR` alone. -/
theorem Piece.same_with_err {x : Piece} (hx : x ≠ .err) (s t : State) (c : Byte) : x.same s { t with err := c } ↔ x.same s t := by
  cases x with
  | err => exact absurd rfl hx
  | _ => rfl

/-- R30, second column: success writes no other register or flag. Beyond the commands that leave the state alone, a piece is either listed
or in a field the update does not name. -/
theorem effectOf_same {i : Instr} {x : Piece} (hx : x ∉ writesOnSuccess i) (s : State) : x.same s (effectOf i s) := by
  cases i with
  | sysNop | sysRd | ldPkt | ldPay => exact x.same_refl s
  | sysClrerr => exact (Piece.same_with_err (by simpa [writesOnSuccess] using hx) s s 0).mpr (x.same_refl s)
  | nrNext =>
    obtain ⟨cur, done, hstep⟩ := s.nr.stepped_frame
    cases x <;> simp_all [writesOnSuccess, effectOf, Piece.same]
  | _ => cases x <;> simp_all [writesOnSuccess, effectOf, Piece.same]

/-- R30, third column: what a failing command does before it raises. -/
theorem beforeRaise_same {i : Instr} {x : Piece} (hx : x ∉ writesOnFailure i) (s : State) : x.same s (beforeRaise i s) := by
  cases i with
  | nrDerive p =>
    cases x with
    | rvalid => simp [writesOnFailure] at hx
    | _ => rfl
  | _ => exact x.same_refl s

theorem length_unsummedPacket (e : EmUnit) : (unsummedPacket e).length = 8 + e.plen.toNat := by
  simp [unsummedPacket]
  omega

/-- R66: EM.SER leaves the bytes of `PKT` beyond the packet alone. -/
theorem EmUnit.serialized_pkt_outside (e : EmUnit) (c : Half) {a : Nat} (ha : 8 + e.plen.toNat ≤ a) :
    (e.serialized c).pkt.read a = e.pkt.read a := by
  simp only [serialized, Memory.putChecksum, serialBuffer]
  rw [Memory.read_write_other _ _ (by omega), Memory.read_write_other _ _ (by omega),
    Memory.read_writeFrom_outside _ _ _ (.inr (by rw [length_unsummedPacket]; omega))]

/-- R30: success writes no other byte. -/
theorem effectOf_byteAt {i : Instr} {s : State} {sp : Space} {a : Nat} (h : ¬ writesByte i s sp a) :
    (effectOf i s).byteAt sp a = s.byteAt sp a := by
  cases i with
  | sysRst => exact absurd trivial h
  | emPayb b =>
    cases sp with
    | pay => exact Memory.read_write_other _ _ fun ha => h ⟨rfl, ha⟩
    | pkt => rfl
  | emSer =>
    cases sp with
    | pay => rfl
    | pkt => exact s.em.serialized_pkt_outside _ (Nat.le_of_not_lt fun ha => h ⟨rfl, ha⟩)
  | _ => rfl

theorem beforeRaise_byteAt (i : Instr) (s : State) (sp : Space) (a : Nat) : (beforeRaise i s).byteAt sp a = s.byteAt sp a := by
  cases i <;> rfl

/-- Settles O20: the two columns of R30, on the two ways a command answers. -/
theorem writesByCommand : Obligations.WritesByCommand := by
  refine fun i s t r h hr => ⟨exec_keeps_cfg h, exec_keeps_host h, ?_⟩
  obtain ⟨hmay, e, he⟩ | ⟨-, v, hv⟩ := exec_next h
  · obtain rfl := raise_next.mp he
    obtain rfl : _ = r := Option.some.inj hr
    refine ⟨fun h0 => absurd h0 e.code_ne_zero, fun _ => ⟨fun x hx => ?_, fun sp a => ?_⟩⟩
    · have hne : x ≠ .err := fun hxe => hx (hxe ▸ hmay)
      rw [Piece.same_withRsp, Piece.same_with_err hne]
      exact beforeRaise_same hx s
    · rw [State.withRsp_byteAt]
      exact beforeRaise_byteAt i s sp a
  · obtain rfl := respond_next.mp hv
    obtain rfl : _ = r := Option.some.inj hr
    refine ⟨fun _ => ⟨fun x hx => ?_, fun sp a ha => ?_⟩, fun h0 => absurd rfl h0⟩
    · rw [Piece.same_withRsp]
      exact effectOf_same hx s
    · rw [State.withRsp_byteAt]
      exact effectOf_byteAt ha

theorem beforeRaise_em (i : Instr) (s : State) : (beforeRaise i s).em = s.em := by cases i <;> rfl

/-- R23: the packet registers and memory after a command that is neither EM.SER nor SYS.RST. -/
theorem exec_keeps_pkt {i : Instr} {s t : State} (hser : i ≠ .emSer) (hrst : i ≠ .sysRst) (h : exec i s = .next t) :
    t.em.pklen = s.em.pklen ∧ t.em.pkt = s.em.pkt := by
  obtain ⟨-, e, he⟩ | ⟨-, v, hv⟩ := exec_next h
  · rw [raise_next.mp he, State.withRsp_em]
    exact ⟨congrArg EmUnit.pklen (beforeRaise_em i s), congrArg EmUnit.pkt (beforeRaise_em i s)⟩
  · rw [respond_next.mp hv, State.withRsp_em]
    cases i with
    | emSer => exact absurd rfl hser
    | sysRst => exact absurd rfl hrst
    | _ => exact ⟨rfl, rfl⟩

/-- Settles O44: no other effect touches `PKLEN` or `PKT`, and the packet is a function of the two. -/
theorem onlySerializationWritesThePacket : Obligations.OnlySerializationWritesThePacket := by
  intro i s t hser hrst h
  obtain ⟨hlen, hpkt⟩ := exec_keeps_pkt hser hrst h
  simp [hlen, hpkt, EmUnit.packet]

/-! ### The reset state and `STATUS` -/

theorem CkUnit.Good.reset : CkUnit.reset.Good := ⟨fun _ => rfl, fun _ => rfl⟩

theorem EmUnit.Good.reset (payMax : Nat) : EmUnit.reset.Good payMax where
  plen_le := Nat.zero_le _
  emseq_zero := rfl
  pklen_shape := .inl rfl
  pay_wf := rfl
  pkt_wf := rfl
  pay_inside _ _ := rfl
  pkt_inside _ _ := rfl
  packet_shape h := absurd rfl h
  emck_current h := absurd rfl h

theorem NrUnit.Good.reset : NrUnit.reset.Good where
  pfx_parts := rfl
  pfx_range := .inl rfl
  valid_derived := by decide
  range_derived h := absurd rfl h
  range_reset _ := ⟨rfl, rfl⟩
  cur_inside _ := ⟨Nat.le_refl _, Nat.le_refl _⟩
  cur_done := by decide

/-- R28: the CORE after either form of reset is good. -/
theorem resetCore_inv (s : State) : (resetCore s).Inv where
  ck_good := .reset
  em_good := .reset _
  nr_good := .reset
  err_legal := Nat.zero_le _

/-- Settles O12: each unit's reset value is good. -/
theorem resetMeetsTheMachineInvariant : Obligations.ResetMeetsTheMachineInvariant :=
  fun cfg => resetCore_inv (State.resetWith cfg)

theorem statusView_resetWith (cfg : Config.Params) : statusView (State.resetWith cfg) = 0 :=
  (rfl : _ = statusView State.reset).trans (by decide)

/-- Settles O11: the reset values of the units, and `STATUS` of flags that are all 0. -/
theorem resetLeavesTheListedValues : Obligations.ResetLeavesTheListedValues := by
  intro cfg s
  have hstatus : regValue s .status = 0 := statusView_resetWith cfg
  refine ⟨rfl, rfl, rfl, rfl, rfl, rfl, rfl, rfl, rfl, rfl, rfl, rfl, rfl, rfl, rfl, rfl, rfl, rfl, rfl, rfl, rfl, rfl, hstatus, rfl⟩

/-- R17: `EF` as the condition on `ERR`. -/
theorem efFlag_eq_decide (err : Byte) : efFlag err = decide (err ≠ 0) := by
  rw [Bool.eq_iff_iff]
  simp [efFlag]

/-- R18: the five low bits of `STATUS` are its flags. -/
theorem getLsbD_statusView_flags (s : State) :
    (statusView s).getLsbD 0 = s.ck.odd ∧ (statusView s).getLsbD 1 = s.ck.z ∧ (statusView s).getLsbD 2 = s.nr.rvalid ∧
      (statusView s).getLsbD 3 = s.nr.done ∧ (statusView s).getLsbD 4 = efFlag s.err := by
  simp only [statusView, BitVec.getLsbD_append]
  simp

/-- R18: the bits above the flags are those of the zero field. -/
theorem getLsbD_statusView_high (s : State) (k : Nat) : (statusView s).getLsbD (k + 5) = false := by
  simp only [statusView, BitVec.getLsbD_append]
  simp

/-- Settles O23, bit by bit. -/
theorem statusShowsTheFiveFlags : Obligations.StatusShowsTheFiveFlags := by
  refine ⟨fun s => ?_, statusView_resetWith⟩
  obtain ⟨hodd, hz, hrvalid, hdone, hef⟩ := getLsbD_statusView_flags s
  refine ⟨hodd, hz, hrvalid, hdone, hef.trans (efFlag_eq_decide s.err), fun k hk => ?_⟩
  obtain ⟨j, rfl⟩ := Nat.exists_eq_add_of_le' hk
  exact getLsbD_statusView_high s j

/-! ### The invariant of the checksum unit -/

theorem CkUnit.Good.clear {c : CkUnit} (h : c.Good) : c.clear.Good := ⟨fun _ => rfl, h.z_zero⟩

theorem CkUnit.Good.pushByte {c : CkUnit} (h : c.Good) (b : Byte) : (c.pushByte b).Good := by
  refine ⟨fun heven => ?_, by simpa using h.z_zero⟩
  have hodd : c.odd = true := by simpa using heven
  rw [CkUnit.pushByte_odd hodd]

theorem CkUnit.Good.pushBytes {c : CkUnit} (h : c.Good) (bs : List Byte) : (c.pushBytes bs).Good := by
  induction bs generalizing c with
  | nil => exact h
  | cons b bs ih => exact ih (h.pushByte b)

theorem CkUnit.Good.finalise {c : CkUnit} (h : c.Good) : c.finalise.Good :=
  ⟨h.hold_even, fun hz => eq_of_beq hz⟩

theorem CkUnit.Good.sumBuffer {c : CkUnit} (h : c.Good) (bs : List Byte) : (c.sumBuffer bs).Good :=
  (h.clear.pushBytes bs).finalise

/-! ### The invariant of the message and the packet -/

theorem EmUnit.Good.renewed {payMax : Nat} {e : EmUnit} (h : e.Good payMax) (v : Half) : (e.renewed v).Good payMax :=
  { h with
    plen_le := Nat.zero_le _
    emseq_zero := rfl
    emck_current := fun hck => absurd rfl hck }

/-- R9, R65: with room for a byte the increment of `PLEN` does not wrap. -/
theorem EmUnit.appended_plen {e : EmUnit} {payMax : Fin 65528} (hroom : e.plen.toNat < payMax.val) (b : Byte) :
    (e.appended b).plen.toNat = e.plen.toNat + 1 := by
  have hmax := payMax.isLt
  have hone : (1 : Half).toNat = 1 := rfl
  simp only [appended, BitVec.toNat_add, hone]
  omega

theorem EmUnit.Good.appended {payMax : Fin 65528} {e : EmUnit} (h : e.Good payMax.val) (hroom : e.plen.toNat < payMax.val)
    (b : Byte) : (e.appended b).Good payMax.val :=
  { h with
    plen_le := by rw [EmUnit.appended_plen hroom]; exact hroom
    pay_wf := Memory.wf_write h.pay_wf _ _
    pay_inside := fun a ha => by
      have hother : a ≠ e.plen.toNat := by omega
      exact (Memory.read_write_other _ _ hother).trans (h.pay_inside a ha)
    emck_current := fun hck => absurd rfl hck }

/-- R39: the word sum of a packet. -/
theorem wsum_packetOf (c : Half) (payload : List Byte) : wsum (packetOf c payload) = 0x0800 + c.toNat + wsum payload := by
  have h8 : (8 : Byte).toNat = 8 := rfl
  have h0 : (0 : Byte).toNat = 0 := rfl
  simp only [packetOf, List.cons_append, List.nil_append, wsum, hiByte_toNat, loByte_toNat, h8, h0]
  omega

/-- R11: the checksum as a number. -/
theorem checksum_toNat (bs : List Byte) : (checksum bs).toNat = 0xFFFF - wsum bs % 65536 := by
  rw [checksum, BitVec.toNat_ofNat]
  omega

/-- R59, R67: a packet that carries the checksum of its bytes with the slot zero verifies. -/
theorem checksum_packetOf_checksum (payload : List Byte) :
    checksum (packetOf (checksum (packetOf 0 payload)) payload) = 0 := by
  have h0 : (0 : Half).toNat = 0 := rfl
  apply BitVec.eq_of_toNat_eq
  rw [checksum_toNat, wsum_packetOf, checksum_toNat, wsum_packetOf, h0]
  omega

/-- A slice sees a write as a list update. -/
theorem Memory.slice_write {m : Memory} (hm : m.wf = true) (n a : Nat) (v : Byte) :
    (m.write a v).slice n = (m.slice n).set a v := by
  apply List.ext_getElem (by simp)
  intro i _ _
  rw [getElem_slice, read_write hm, List.getElem_set, getElem_slice]
  simp only [eq_comm]

section
variable {e : EmUnit} (hpkt : e.pkt.wf = true)
include hpkt

theorem EmUnit.serialBuffer_wf : e.serialBuffer.wf = true := Memory.wf_writeFrom hpkt _ _

/-- R66: the buffer EM.SER sums holds the packet with its checksum slot zero. -/
theorem EmUnit.slice_serialBuffer : e.serialBuffer.slice (8 + e.plen.toNat) = packetOf 0 e.payload := by
  rw [← length_unsummedPacket]
  exact Memory.slice_writeFrom hpkt _

/-- R66, step 4: the checksum replaces the two bytes of its slot. -/
theorem EmUnit.slice_serialized (c : Half) : (e.serialized c).pkt.slice (8 + e.plen.toNat) = packetOf c e.payload := by
  have hbuf := EmUnit.serialBuffer_wf hpkt
  simp only [serialized, Memory.putChecksum]
  rw [Memory.slice_write (Memory.wf_write hbuf _ _), Memory.slice_write hbuf, slice_serialBuffer hpkt]
  rfl

end

/-- R9, R66: `PKLEN` holds the length of a packet whose payload fits. -/
theorem EmUnit.serialized_pklen {payMax : Fin 65528} {e : EmUnit} (hfits : e.plen.toNat ≤ payMax.val) (c : Half) :
    (e.serialized c).pklen.toNat = 8 + e.plen.toNat := by
  have hmax := payMax.isLt
  simp only [serialized, BitVec.toNat_ofNat]
  omega

theorem serialSum_csum {s : State} (hpkt : s.em.pkt.wf = true) : (serialSum s).csum = checksum (packetOf 0 s.em.payload) := by
  rw [serialSum, CkUnit.sumBuffer_csum, EmUnit.slice_serialBuffer hpkt]

theorem EmUnit.packet_serialized {payMax : Fin 65528} {e : EmUnit} (hpkt : e.pkt.wf = true) (hfits : e.plen.toNat ≤ payMax.val)
    (c : Half) : (e.serialized c).packet = packetOf c e.payload := by
  rw [packet, serialized_pklen hfits]
  exact slice_serialized hpkt c

/-- R39, R59, R107: serializing with the checksum of the packet makes a packet that verifies and is current. -/
theorem EmUnit.Good.serialized {payMax : Fin 65528} {e : EmUnit} (h : e.Good payMax.val) {c : Half}
    (hc : c = checksum (packetOf 0 e.payload)) : (e.serialized c).Good payMax.val where
  plen_le := h.plen_le
  emseq_zero := h.emseq_zero
  pklen_shape := by
    have hplen := h.plen_le
    rw [serialized_pklen hplen]
    omega
  pay_wf := h.pay_wf
  pkt_wf := Memory.wf_write (Memory.wf_write (serialBuffer_wf h.pkt_wf) _ _) _ _
  pay_inside := h.pay_inside
  pkt_inside a ha := by
    have hplen := h.plen_le
    rw [serialized_pkt_outside e c (by omega)]
    exact h.pkt_inside a ha
  packet_shape _ := by
    rw [packet_serialized h.pkt_wf h.plen_le, hc]
    exact ⟨⟨_, _, rfl⟩, checksum_packetOf_checksum e.payload⟩
  emck_current _ := packet_serialized h.pkt_wf h.plen_le c

/-! ### The invariant of the range and its iterator -/

theorem NrUnit.Good.dropRange {n : NrUnit} (h : n.Good) : ({ n with rvalid := false } : NrUnit).Good :=
  { h with valid_derived := fun hv => nomatch hv }

theorem NrUnit.Good.withAddr {n : NrUnit} (h : n.Good) (a : Word) : ({ n with addr := a } : NrUnit).Good := { h with }

/-- R70, R81: the end octet in the machine's arithmetic and in the spec's. -/
theorem endOctet_reservedBits (p : Byte) : endOctet (reservedBits p) = BitVec.ofNat 8 (lastOctet p.toNat) := by
  have hbits : reservedBits p = 0 ↔ p.toNat % 8 = 0 := by
    rw [← BitVec.toNat_inj, reservedBits_toNat]
    rfl
  simp only [endOctet, lastOctet, hbits, reservedBits_toNat]
  split <;> rfl

/-- R70, R74: a derivation stores what `deriveRange` answers. -/
theorem NrUnit.derived_range (n : NrUnit) {p : Byte} (hlow : 24 ≤ p.toNat) (hhigh : p.toNat ≤ 32) :
    deriveRange n.addr p.toNat = .range (n.derived p).startA (n.derived p).endA := by
  have hbytes : reservedBytes p = 4 ↔ p.toNat / 8 = 4 := by
    rw [← BitVec.toNat_inj, reservedBytes_toNat hhigh]
    rfl
  simp only [deriveRange, derived, hbytes, endOctet_reservedBits, if_neg (Nat.not_lt.mpr hhigh), if_neg (Nat.not_lt.mpr hlow)]
  split <;> rfl

/-- R74: `CUR` starts at the start octet, and `DONE` says that the range is empty. -/
theorem NrUnit.derived_cur (n : NrUnit) (p : Byte) : (n.derived p).cur = hostOctet (n.derived p).startA := rfl

theorem NrUnit.derived_done (n : NrUnit) (p : Byte) :
    (n.derived p).done = true ↔ (hostOctet (n.derived p).endA).toNat < (hostOctet (n.derived p).startA).toNat :=
  decide_eq_true_iff

theorem ne_zero_of_le_toNat {p : Byte} (h : 24 ≤ p.toNat) : p ≠ 0 := by
  rintro rfl
  simp at h

theorem NrUnit.Good.derived (n : NrUnit) {p : Byte} (hlow : 24 ≤ p.toNat) (hhigh : p.toNat ≤ 32) : (n.derived p).Good where
  pfx_parts := by
    show p.toNat = (reservedBytes p).toNat * 8 + (reservedBits p).toNat
    rw [reservedBytes_toNat hhigh, reservedBits_toNat]
    omega
  pfx_range := .inr ⟨hlow, hhigh⟩
  valid_derived _ := ne_zero_of_le_toNat hlow
  range_derived _ := ⟨n.addr, n.derived_range hlow hhigh⟩
  range_reset hzero := absurd hzero (ne_zero_of_le_toNat hlow)
  cur_inside hdone := by
    rw [n.derived_cur]
    exact ⟨Nat.le_refl _, Nat.le_of_not_lt fun hempty => by simp [(n.derived_done p).mpr hempty] at hdone⟩
  cur_done hdone := .inr ⟨n.derived_cur p, (n.derived_done p).mp hdone⟩

theorem NrUnit.Good.stepped {n : NrUnit} (h : n.Good) (hdone : n.done = false) : n.stepped.Good := by
  obtain ⟨hstart, hend⟩ := h.cur_inside hdone
  by_cases hlast : n.cur = hostOctet n.endA
  · rw [NrUnit.stepped_last hlast]
    exact { h with
      cur_inside := fun hd => nomatch hd
      cur_done := fun _ => .inl hlast }
  · have hlt : n.cur.toNat < (hostOctet n.endA).toNat := Nat.lt_of_le_of_ne hend fun he => hlast (BitVec.eq_of_toNat_eq he)
    have hnext : (n.cur + 1).toNat = n.cur.toNat + 1 := by
      have hbound := (hostOctet n.endA).isLt
      have hone : (1 : Byte).toNat = 1 := rfl
      rw [BitVec.toNat_add, hone]
      omega
    have hinside : (hostOctet n.startA).toNat ≤ (n.cur + 1).toNat ∧ (n.cur + 1).toNat ≤ (hostOctet n.endA).toNat := by omega
    rw [NrUnit.stepped_before_last hlast]
    exact { h with
      cur_inside := fun _ => hinside
      cur_done := fun hd => by simp [hdone] at hd }

/-! ### The invariant of the machine -/

theorem State.Inv.withRsp {s : State} (h : s.Inv) (r : Option Response) : (s.withRsp r).Inv := { h with }

theorem State.Inv.advance {s : State} (h : s.Inv) : s.advance.Inv := { h with }

/-- R19, R92: raising an error keeps the invariant. -/
theorem State.Inv.raise {s t : State} (h : s.Inv) {e : ErrorCode} (ht : raise e s = .next t) : t.Inv := by
  rw [raise_next.mp ht]
  exact { h with err_legal := e.code_range.2 }

theorem State.Inv.beforeRaise {s : State} (h : s.Inv) (i : Instr) : (beforeRaise i s).Inv := by
  cases i with
  | nrDerive p => exact { h with nr_good := h.nr_good.dropRange }
  | _ => exact h

/-- Each command's effect keeps the unit it writes good. -/
theorem State.Inv.effectOf {s : State} (h : s.Inv) {i : Instr} (hi : guardOf i s) : (effectOf i s).Inv := by
  cases i with
  | sysNop | sysRd | ldPkt | ldPay => exact h
  | sysClrerr => exact { h with err_legal := Nat.zero_le _ }
  | sysRst => exact resetCore_inv s
  | ckClr => exact { h with ck_good := h.ck_good.clear }
  | ckPutb b => exact { h with ck_good := h.ck_good.pushByte b }
  | ckPuth w => exact { h with ck_good := (h.ck_good.pushByte _).pushByte _ }
  | ckFin => exact { h with ck_good := h.ck_good.finalise }
  | ckPkt => exact { h with ck_good := h.ck_good.sumBuffer _ }
  | emNew v => exact { h with em_good := h.em_good.renewed v }
  | emPayb b => exact { h with em_good := h.em_good.appended hi b }
  | emSer =>
    exact { h with
      ck_good := h.ck_good.sumBuffer _
      em_good := h.em_good.serialized (serialSum_csum h.em_good.pkt_wf) }
  | nrAdrh v => exact { h with nr_good := h.nr_good.withAddr _ }
  | nrAdrl v => exact { h with nr_good := h.nr_good.withAddr _ }
  | nrDerive p => exact { h with nr_good := .derived s.nr hi.1 hi.2 }
  | nrNext => exact { h with nr_good := h.nr_good.stepped hi }

theorem exec_keeps_inv {i : Instr} {s t : State} (h : s.Inv) (ht : exec i s = .next t) : t.Inv := by
  obtain ⟨-, e, he⟩ | ⟨hi, v, hv⟩ := exec_next ht
  · exact (h.beforeRaise i).raise he
  · rw [respond_next.mp hv]
    exact (h.effectOf hi).withRsp _

/-- Settles O13: each kind of step keeps each unit good. -/
theorem everyStepKeepsTheMachineInvariant : Obligations.EveryStepKeepsTheMachineInvariant := by
  intro s t h ht
  obtain ⟨-, rfl⟩ | rfl | ⟨i, hi⟩ | hraise := step_next ht
  · exact h.withRsp none
  · exact (resetCore_inv s.advance).withRsp none
  · exact exec_keeps_inv h.advance hi
  · exact h.advance.raise hraise

end Sys2Proof.Machine
end

section
/-! PROOFS. Family 20_memory: the bytes outside the readable windows reach no response and no readable byte (O27). -/

namespace Sys2Proof.Machine

/-! ### Commands through their effects -/

section
variable (s : State)

theorem exec_ckFin : exec .ckFin s = respond (s.ck.finalise.csum.setWidth 32) (effectOf .ckFin s) := rfl

theorem exec_ckPkt : exec .ckPkt s =
    guardCapacity s .pkt s.em.pklen.toNat (respond ((s.ck.sumBuffer s.em.packet).csum.setWidth 32) (effectOf .ckPkt s)) := rfl

theorem exec_emPayb (b : Byte) : exec (.emPayb b) s =
    if s.em.plen.toNat = s.cfg.payMax.val then raise .payloadFull s
    else guardCapacity s .pay (s.em.plen.toNat + 1) (complete (effectOf (.emPayb b) s)) := rfl

theorem exec_emSer : exec .emSer s =
    guardCapacity s .pay s.em.plen.toNat (guardCapacity s .pkt (8 + s.em.plen.toNat)
      (respond ((serialSum s).csum.setWidth 32) (effectOf .emSer s))) := rfl

theorem exec_ldPkt (a : Half) : exec (.ldPkt a) s = loadByte .pkt s.em.pklen a s := rfl

theorem exec_ldPay (a : Half) : exec (.ldPay a) s = loadByte .pay s.em.plen a s := rfl

theorem exec_nrNext : exec .nrNext s =
    if s.nr.rvalid = false then raise .noRange s
    else if s.nr.done = true then raise .rangeDone s
    else respond (withOctet s.nr.startA s.nr.cur) (effectOf .nrNext s) := rfl

end

/-! ### What indistinguishable states agree on -/

/-- Reads that agree below `n` are what equal slices say. -/
theorem Memory.read_of_slice_eq {m m' : Memory} {n : Nat} (h : m.slice n = m'.slice n) {a : Nat} (ha : a < n) :
    m.read a = m'.read a :=
  List.map_inj_left.mp h a (List.mem_range.mpr ha)

section
variable {s s' : State} (h : Indistinguishable s s')
include h

theorem Indistinguishable.emck_eq : s'.em.emck = s.em.emck := (congrArg EmUnit.emck h.em_eq :)

theorem Indistinguishable.emid_eq : s'.em.emid = s.em.emid := (congrArg EmUnit.emid h.em_eq :)

theorem Indistinguishable.emseq_eq : s'.em.emseq = s.em.emseq := (congrArg EmUnit.emseq h.em_eq :)

theorem Indistinguishable.plen_eq : s'.em.plen = s.em.plen := (congrArg EmUnit.plen h.em_eq :)

theorem Indistinguishable.pklen_eq : s'.em.pklen = s.em.pklen := (congrArg EmUnit.pklen h.em_eq :)

/-- R22: the payload is inside its window. -/
theorem Indistinguishable.payload_slice_eq : s'.em.payload = s.em.payload := by
  rw [EmUnit.payload, h.plen_eq]
  exact Memory.slice_congr h.payload_eq

/-- R61: the packet is inside its window. -/
theorem Indistinguishable.packet_slice_eq : s'.em.packet = s.em.packet := by
  rw [EmUnit.packet, h.pklen_eq]
  exact Memory.slice_congr h.packet_eq

/-- R84: no register shows a byte of a memory. -/
theorem Indistinguishable.regValue_eq (x : Reg) : regValue s' x = regValue s x := by
  cases x <;>
    simp only [regValue, statusView, h.cfg_eq, h.ck_eq, h.nr_eq, h.err_eq, h.emck_eq, h.emid_eq, h.emseq_eq, h.plen_eq, h.pklen_eq]

theorem Indistinguishable.capacity_eq (sp : Space) : s'.capacity sp = s.capacity sp := by
  cases sp <;> simp only [State.capacity, h.cfg_eq]

theorem Indistinguishable.nextInput_eq : s'.nextInput = s.nextInput := by simp only [State.nextInput, h.host_eq]

/-! ### Updates that keep states indistinguishable -/

theorem Indistinguishable.withRsp (r : Option Response) : Indistinguishable (s.withRsp r) (s'.withRsp r) :=
  { h with host_eq := congrArg (fun p : HostPort => { p with rsp := r }) h.host_eq }

theorem Indistinguishable.advance : Indistinguishable s.advance s'.advance :=
  { h with host_eq := congrArg (fun p : HostPort => { p with pc := p.pc + 1 }) h.host_eq }

theorem Indistinguishable.withErr (c : Byte) : Indistinguishable { s with err := c } { s' with err := c } :=
  { h with err_eq := rfl }

theorem Indistinguishable.mapCk (f : CkUnit → CkUnit) : Indistinguishable { s with ck := f s.ck } { s' with ck := f s'.ck } :=
  { h with ck_eq := congrArg f h.ck_eq }

theorem Indistinguishable.mapNr (f : NrUnit → NrUnit) : Indistinguishable { s with nr := f s.nr } { s' with nr := f s'.nr } :=
  { h with nr_eq := congrArg f h.nr_eq }

/-- R28: reset forgets both memories. -/
theorem Indistinguishable.resetCore : Indistinguishable (resetCore s) (resetCore s') where
  cfg_eq := h.cfg_eq
  ck_eq := rfl
  nr_eq := rfl
  err_eq := rfl
  host_eq := h.host_eq
  em_eq := rfl
  payload_eq _ _ := rfl
  packet_eq _ _ := rfl

/-- R64: EM.NEW closes the window of `PAY`. -/
theorem Indistinguishable.renewed (v : Half) :
    Indistinguishable { s with em := s.em.renewed v } { s' with em := s'.em.renewed v } :=
  { h with
    em_eq := congrArg (·.renewed v) h.em_eq
    payload_eq := fun _ ha => absurd ha (Nat.not_lt_zero _) }

/-- R65: EM.PAYB writes the one byte by which it opens the window of `PAY`. -/
theorem Indistinguishable.appended (hwf : s.em.pay.wf = true) (hwf' : s'.em.pay.wf = true) (b : Byte) :
    Indistinguishable { s with em := s.em.appended b } { s' with em := s'.em.appended b } :=
  { h with
    em_eq := congrArg (fun e : EmUnit => { e with plen := e.plen + 1, emck := 0 }) h.em_eq
    payload_eq := fun a (ha : a < (s.em.plen + 1).toNat) => by
      show (s'.em.pay.write s'.em.plen.toNat b).read a = (s.em.pay.write s.em.plen.toNat b).read a
      rw [h.plen_eq, Memory.read_write hwf', Memory.read_write hwf]
      split
      · rfl
      next hne => exact h.payload_eq a (by bv_omega) }

/-- R66: EM.SER sums the header and the payload, which is inside its window. -/
theorem Indistinguishable.serialSum_eq (hwf : s.em.pkt.wf = true) (hwf' : s'.em.pkt.wf = true) : serialSum s' = serialSum s := by
  simp only [serialSum, EmUnit.slice_serialBuffer hwf, EmUnit.slice_serialBuffer hwf', h.ck_eq, h.payload_slice_eq]

/-- R66: EM.SER writes every byte of the packet it makes readable. -/
theorem Indistinguishable.serialized (hwf : s.em.pkt.wf = true) (hwf' : s'.em.pkt.wf = true) (c : Half) :
    Indistinguishable { s with em := s.em.serialized c } { s' with em := s'.em.serialized c } :=
  { h with
    em_eq := congrArg (fun e : EmUnit => { e with pklen := BitVec.ofNat 16 (8 + e.plen.toNat), emck := c }) h.em_eq
    packet_eq := fun a (ha : a < (BitVec.ofNat 16 (8 + s.em.plen.toNat)).toNat) => by
      have hin : a < 8 + s.em.plen.toNat := Nat.lt_of_lt_of_le ha (BitVec.toNat_ofNat .. ▸ Nat.mod_le _ _)
      have hslice : (s'.em.serialized c).pkt.slice (8 + s.em.plen.toNat) = (s.em.serialized c).pkt.slice (8 + s.em.plen.toNat) := by
        rw [EmUnit.slice_serialized hwf, ← h.payload_slice_eq, ← h.plen_eq, EmUnit.slice_serialized hwf']
      exact Memory.read_of_slice_eq hslice hin }

/-- R30, R103: what a command does to indistinguishable states of the invariant keeps them so. -/
theorem Indistinguishable.effectOf (hs : s.Inv) (hs' : s'.Inv) (i : Instr) : Indistinguishable (effectOf i s) (effectOf i s') := by
  cases i with
  | sysNop | sysRd | ldPkt | ldPay => exact h
  | sysClrerr => exact h.withErr 0
  | sysRst => exact h.resetCore
  | ckClr => exact h.mapCk (·.clear)
  | ckPutb b => exact h.mapCk (·.pushByte b)
  | ckPuth w => exact h.mapCk fun c => (c.pushByte (hiByte w)).pushByte (loByte w)
  | ckFin => exact h.mapCk (·.finalise)
  | ckPkt => exact { h with ck_eq := congrArg₂ CkUnit.sumBuffer h.ck_eq h.packet_slice_eq }
  | emNew v => exact h.renewed v
  | emPayb b => exact h.appended hs.em_good.pay_wf hs'.em_good.pay_wf b
  | emSer =>
    have hsum := h.serialSum_eq hs.em_good.pkt_wf hs'.em_good.pkt_wf
    rw [Machine.effectOf, Machine.effectOf, hsum]
    exact (h.mapCk fun _ => serialSum s).serialized hs.em_good.pkt_wf hs'.em_good.pkt_wf _
  | nrAdrh v => exact h.mapNr fun n => { n with addr := withAddrHigh n.addr v }
  | nrAdrl v => exact h.mapNr fun n => { n with addr := withAddrLow n.addr v }
  | nrDerive p => exact h.mapNr (·.derived p)
  | nrNext => exact h.mapNr NrUnit.stepped

end

/-! ### Outcomes a host cannot tell apart -/

/-- R32, R103: when the first outcome is a next state, the second is one that a host cannot tell from it. -/
def AnswersAlike (o o' : Host.Outcome State Fault Refusal) : Prop :=
  ∀ t, o = .next t → ∃ t', o' = .next t' ∧ Indistinguishable t t'

theorem AnswersAlike.next {t t' : State} (h : Indistinguishable t t') : AnswersAlike (.next t) (.next t') := by
  rintro _ ⟨⟩
  exact ⟨t', rfl, h⟩

theorem AnswersAlike.ite {p : Prop} [Decidable p] {o₁ o₁' o₂ o₂' : Host.Outcome State Fault Refusal}
    (h₁ : AnswersAlike o₁ o₁') (h₂ : ¬ p → AnswersAlike o₂ o₂') :
    AnswersAlike (if p then o₁ else o₂) (if p then o₁' else o₂') := by
  split
  · exact h₁
  next hp => exact h₂ hp

section
variable {s s' : State} (h : Indistinguishable s s')
include h

theorem Indistinguishable.respond (v : Word) : AnswersAlike (respond v s) (respond v s') := .next (h.withRsp _)

theorem Indistinguishable.complete : AnswersAlike (complete s) (complete s') := h.respond 0

theorem Indistinguishable.raise (e : ErrorCode) : AnswersAlike (raise e s) (raise e s') := .next ((h.withErr _).withRsp _)

/-- R31: the capacities are the same, so the same accesses go on. -/
theorem Indistinguishable.guardCapacity (sp : Space) (n : Nat) {k k' : Host.Outcome State Fault Refusal} (hk : AnswersAlike k k') :
    AnswersAlike (guardCapacity s sp n k) (guardCapacity s' sp n k') := by
  simp only [Machine.guardCapacity, h.capacity_eq]
  exact .ite hk fun _ _ hnext => nomatch hnext

/-! ### Every command answers alike -/

/-- R32: a load answers only bytes inside its window. -/
theorem loadByte_alike {sp : Space} {len : Half} (hread : ∀ a, a < len.toNat → s'.byteAt sp a = s.byteAt sp a) (a : Half) :
    AnswersAlike (loadByte sp len a s) (loadByte sp len a s') :=
  .ite (h.raise _) fun hout => by
    rw [hread _ (BitVec.lt_def.mp (BitVec.not_le.mp hout))]
    exact h.guardCapacity _ _ (h.respond _)

theorem execSysRd_alike (r : Byte) : AnswersAlike (execSysRd r s) (execSysRd r s') := by
  unfold execSysRd
  split
  · exact h.raise _
  · rw [h.regValue_eq]
    exact h.respond _

/-- R103: from indistinguishable states of the invariant a command makes the same choices and answers the same value, and its effect keeps
the states indistinguishable. -/
theorem exec_alike (hs : s.Inv) (hs' : s'.Inv) (i : Instr) : AnswersAlike (exec i s) (exec i s') := by
  have heffect := h.effectOf hs hs' i
  cases i with
  | sysNop | sysClrerr | sysRst | ckClr | ckPutb | ckPuth | emNew | nrAdrh | nrAdrl => exact heffect.complete
  | sysRd r => exact execSysRd_alike h r
  | ckFin =>
    rw [exec_ckFin, exec_ckFin, h.ck_eq]
    exact heffect.respond _
  | ckPkt =>
    rw [exec_ckPkt, exec_ckPkt, h.ck_eq, h.packet_slice_eq, h.pklen_eq]
    exact h.guardCapacity _ _ (heffect.respond _)
  | emPayb b =>
    rw [exec_emPayb, exec_emPayb, h.plen_eq, h.cfg_eq]
    exact .ite (h.raise _) fun _ => h.guardCapacity _ _ heffect.complete
  | emSer =>
    rw [exec_emSer, exec_emSer, h.plen_eq, h.serialSum_eq hs.em_good.pkt_wf hs'.em_good.pkt_wf]
    exact h.guardCapacity _ _ (h.guardCapacity _ _ (heffect.respond _))
  | ldPkt a =>
    rw [exec_ldPkt, exec_ldPkt, h.pklen_eq]
    exact loadByte_alike h h.packet_eq a
  | ldPay a =>
    rw [exec_ldPay, exec_ldPay, h.plen_eq]
    exact loadByte_alike h h.payload_eq a
  | nrDerive p =>
    have hdropped : Indistinguishable (dropRange s) (dropRange s') := h.mapNr fun n => { n with rvalid := false }
    exact .ite (hdropped.raise _) fun _ => .ite (hdropped.raise _) fun _ => heffect.complete
  | nrNext =>
    rw [exec_nrNext, exec_nrNext, h.nr_eq]
    exact .ite (h.raise _) fun _ => .ite (h.raise _) fun _ => heffect.respond _

/-- R4: the host presents the same input to both, and each kind of input is answered alike. -/
theorem step_alike (hs : s.Inv) (hs' : s'.Inv) : AnswersAlike (step s) (step s') := by
  match hn : s.nextInput with
  | none =>
    rw [step_of_noInput hn, step_of_noInput (h.nextInput_eq.trans hn)]
    exact .next (h.withRsp none)
  | some .resetInput =>
    rw [step_of_resetInput hn, step_of_resetInput (h.nextInput_eq.trans hn)]
    exact .next (h.advance.resetCore.withRsp none)
  | some (.command w) =>
    match hd : decode w with
    | .command i =>
      rw [step_of_command hn hd, step_of_command (h.nextInput_eq.trans hn) hd]
      exact exec_alike h.advance hs.advance hs'.advance i
    | .illegal _ =>
      rw [step_of_illegal hn hd, step_of_illegal (h.nextInput_eq.trans hn) hd]
      exact h.advance.raise _

end

/-- Settles O27: whatever the host presents, its answer reads and sums only bytes inside the windows, and the bytes a window gains are
written alike. -/
theorem bytesOutsideTheWindowsAreUnobservable : Obligations.BytesOutsideTheWindowsAreUnobservable :=
  fun _ _ t hs hs' h => step_alike h hs hs' t

end Sys2Proof.Machine
end

section
/-! PROOFS. Family 30_encoding: the decoder against the encoder and the opcode table (O1, O2, O3, O4), the assembler (O5, O6), the response to
every word (O17), and what three command sequences compute (O39, O45, O53). -/

namespace Sys2Proof

/-! ### Words of a format decode to the command of their opcode -/

theorem decode_wordZ {op : Byte} {i : Instr} (h : opcodeOf op = some (.z i)) : decode (wordZ op) = .command i := by
  simp [decode, h, Opcode.decode]

theorem decode_wordA {op : Byte} {mk : Byte → Instr} (h : opcodeOf op = some (.a mk)) (v : Byte) :
    decode (wordA op v) = .command (mk v) := by
  simp [decode, h, Opcode.decode]

theorem decode_wordB {op : Byte} {mk : Byte → Instr} (h : opcodeOf op = some (.b mk)) (v : Byte) :
    decode (wordB op v) = .command (mk v) := by
  simp [decode, h, Opcode.decode]

theorem decode_wordH {op : Byte} {mk : Half → Instr} (h : opcodeOf op = some (.h mk)) (v : Half) :
    decode (wordH op v) = .command (mk v) := by
  simp [decode, h, Opcode.decode]

/-- R48 undoes R41 to R43. -/
theorem decode_encode (i : Instr) : decode (encode i) = .command i := by
  cases i with
  | sysNop | sysClrerr | sysRst | ckClr | ckFin | ckPkt | emSer | nrNext => exact decode_wordZ rfl
  | sysRd v | nrDerive v => exact decode_wordA rfl v
  | ckPutb v | emPayb v => exact decode_wordB rfl v
  | ckPuth v | emNew v | ldPkt v | ldPay v | nrAdrh v | nrAdrl v => exact decode_wordH rfl v

/-- Settles O1, by the lemma of each command's format. -/
theorem decodeOfEncode : Obligations.DecodeOfEncode := decode_encode

/-! ### A word is put together from its fields -/

theorem wordZ_of_fields {w : Word} (ha : aField w = 0) (himm : immField w = 0) : wordZ (opField w) = w := by
  rw [word_eq_fields w, ha, himm, ← wordZ, opField_wordZ]

theorem wordA_of_fields {w : Word} (himm : immField w = 0) : wordA (opField w) (aField w) = w := by
  conv_rhs => rw [word_eq_fields w, himm]
  rfl

theorem wordH_of_fields {w : Word} (ha : aField w = 0) : wordH (opField w) (immField w) = w := by
  conv_rhs => rw [word_eq_fields w, ha]
  rfl

theorem wordB_of_fields {w : Word} (ha : aField w = 0) (hhigh : immHigh w = 0) : wordB (opField w) (immLow w) = w := by
  conv_rhs => rw [word_eq_fields w, immField_eq_bytes, ha, hhigh]
  rfl

/-! ### The rows of the opcode map -/

/-- R41 to R43, R49: every command of an opcode is spelled by the mnemonic and its operand, and encoded by the opcode and its operand. -/
def Opcode.Spells (m : String) (op : Byte) : Opcode → Prop
  | .z i => i.toAsm = ⟨m, none⟩ ∧ encode i = wordZ op
  | .a mk => ∀ v, (mk v).toAsm = ⟨m, some v.toNat⟩ ∧ encode (mk v) = wordA op v
  | .b mk => ∀ v, (mk v).toAsm = ⟨m, some v.toNat⟩ ∧ encode (mk v) = wordB op v
  | .h mk => ∀ v, (mk v).toAsm = ⟨m, some v.toNat⟩ ∧ encode (mk v) = wordH op v

/-- The three descriptions of a command agree: the opcode map, the spelling and the encoder. -/
theorem commandMap_spells : ∀ r ∈ commandMap, r.command.Spells r.mnemonic r.op := by
  simp [commandMap, Opcode.Spells, Instr.toAsm, Instr.mnemonic, Instr.operand, encode]

/-- Decoding under a format answers a command exactly when the reserved bits are zero. -/
theorem Decoded.guarded_eq_command {p : Prop} [Decidable p] {i j : Instr} {why : IllegalWord} :
    (if p then .command j else .illegal why) = Decoded.command i ↔ p ∧ j = i := by
  split <;> simp_all

/-- R40 to R42: what an opcode decodes to has its mnemonic, and no bit of the word is dropped. -/
theorem Opcode.Spells.of_decode {m : String} {o : Opcode} {w : Word} {i : Instr} (h : o.Spells m (opField w))
    (hd : o.decode w = .command i) : i.mnemonic = m ∧ encode i = w := by
  cases o with
  | z j =>
    obtain ⟨⟨ha, himm⟩, rfl⟩ := Decoded.guarded_eq_command.mp hd
    exact ⟨congrArg AsmLine.mnemonic h.1, h.2.trans (wordZ_of_fields ha himm)⟩
  | a mk =>
    obtain ⟨himm, rfl⟩ := Decoded.guarded_eq_command.mp hd
    exact ⟨congrArg AsmLine.mnemonic (h _).1, (h _).2.trans (wordA_of_fields himm)⟩
  | b mk =>
    obtain ⟨⟨ha, hhigh⟩, rfl⟩ := Decoded.guarded_eq_command.mp hd
    exact ⟨congrArg AsmLine.mnemonic (h _).1, (h _).2.trans (wordB_of_fields ha hhigh)⟩
  | h mk =>
    obtain ⟨ha, rfl⟩ := Decoded.guarded_eq_command.mp hd
    exact ⟨congrArg AsmLine.mnemonic (h _).1, (h _).2.trans (wordH_of_fields ha)⟩

/-- What decoding to a command says: the opcode has a row, whose command is read from the word, has the row's mnemonic and encodes to the
word. -/
theorem decode_eq_command {w : Word} {i : Instr} (h : decode w = .command i) :
    ∃ r ∈ commandMap, opField w = r.op ∧ r.command.decode w = .command i ∧ i.mnemonic = r.mnemonic ∧ encode i = w := by
  unfold decode at h
  split at h
  · cases h
  next o ho =>
    obtain ⟨r, hr, hop, rfl⟩ := opcodeOf_eq_some ho
    exact ⟨r, hr, hop.symm, h, (hop ▸ commandMap_spells r hr).of_decode h⟩

/-- Settles O2: the row of the word's opcode spells the command, and a word with zero reserved bits is put together from its fields. -/
theorem encodeOfDecode : Obligations.EncodeOfDecode := by
  intro w i h
  obtain ⟨-, -, -, -, -, hw⟩ := decode_eq_command h
  exact hw

/-! ### The opcode table (R44) -/

def Opcode.format : Opcode → Format
  | .z _ => .z
  | .a _ => .a
  | .b _ => .b
  | .h _ => .h

/-- R41: the mask column, a function of the format. -/
def Format.mask : Format → Word
  | .z => 0xFFFFFFFF
  | .a => 0xFF00FFFF
  | .b => 0xFFFFFF00
  | .h => 0xFFFF0000

/-- R42: the bits a format reserves are zero. -/
def Format.ReservedZero (w : Word) : Format → Prop
  | .z => aField w = 0 ∧ immField w = 0
  | .a => immField w = 0
  | .b => aField w = 0 ∧ immHigh w = 0
  | .h => aField w = 0

/-- R41: the table's row of a line of the opcode map. -/
def CommandRow.tableRow (r : CommandRow) : OpcodeRow := ⟨r.mnemonic, wordZ r.op, r.command.format.mask⟩

theorem opcodeTable_eq : opcodeTable = commandMap.map CommandRow.tableRow := by decide

theorem opField_and (w w' : Word) : opField (w &&& w') = opField w &&& opField w' := BitVec.extractLsb'_and

theorem aField_and (w w' : Word) : aField (w &&& w') = aField w &&& aField w' := BitVec.extractLsb'_and

theorem immHigh_and (w w' : Word) : immHigh (w &&& w') = immHigh w &&& immHigh w' := BitVec.extractLsb'_and

theorem immLow_and (w w' : Word) : immLow (w &&& w') = immLow w &&& immLow w' := BitVec.extractLsb'_and

theorem word_eq_iff_bytes {w w' : Word} :
    w = w' ↔ opField w = opField w' ∧ aField w = aField w' ∧ immHigh w = immHigh w' ∧ immLow w = immLow w' := by
  refine ⟨fun h => by simp [h], fun ⟨hop, ha, hhigh, hlow⟩ => ?_⟩
  rw [word_eq_fields w, word_eq_fields w', immField_eq_bytes w, immField_eq_bytes w', hop, ha, hhigh, hlow]

/-- R42: the bytes of the immediate, taken from the immediate. -/
theorem immHigh_eq_hiByte (w : Word) : immHigh w = Machine.hiByte (immField w) := by
  simp [immHigh, Machine.hiByte, immField]

theorem immLow_eq_loByte (w : Word) : immLow w = Machine.loByte (immField w) := by
  simp [immLow, Machine.loByte, immField]

theorem immField_eq_zero {w : Word} : immField w = 0#16 ↔ immHigh w = 0#8 ∧ immLow w = 0#8 := by
  constructor
  · intro h
    rw [immHigh_eq_hiByte, immLow_eq_loByte, h]
    exact ⟨rfl, rfl⟩
  · rintro ⟨hhigh, hlow⟩
    rw [immField_eq_bytes, hhigh, hlow]
    rfl

/-- R42: the field a format's operand stands in is the part of the mask that is zero. -/
theorem Format.mask_bytes (f : Format) :
    opField f.mask = 0xFF ∧ aField f.mask = (if f = .a then 0 else 0xFF) ∧ immHigh f.mask = (if f = .h then 0 else 0xFF) ∧
      immLow f.mask = if f = .b ∨ f = .h then 0 else 0xFF := by
  cases f <;> decide

theorem wordZ_low (op : Byte) : immHigh (wordZ op) = 0 ∧ immLow (wordZ op) = 0 := immField_eq_zero.mp (immField_wordZ op)

/-- R44: a masked word is a row's pattern exactly when it has the row's opcode and no reserved bit, since the format's operand is all that
the mask drops. -/
theorem Format.masked_eq_iff {f : Format} {w : Word} {op : Byte} :
    w &&& f.mask = wordZ op ↔ opField w = op ∧ f.ReservedZero w := by
  obtain ⟨hop, ha, hhigh, hlow⟩ := f.mask_bytes
  obtain ⟨hzhigh, hzlow⟩ := wordZ_low op
  have hall (x : Byte) : x &&& 255#8 = x := BitVec.and_allOnes
  rw [word_eq_iff_bytes, opField_and, aField_and, immHigh_and, immLow_and, opField_wordZ, aField_wordZ, hzhigh, hzlow,
    hop, ha, hhigh, hlow]
  cases f <;> simp [hall, ReservedZero, immField_eq_zero]

/-- R48: an opcode accepts the words with its format's reserved bits zero. -/
theorem Opcode.decode_legal_iff {o : Opcode} {w : Word} : (∃ i, o.decode w = .command i) ↔ o.format.ReservedZero w := by
  cases o <;> simp [Opcode.decode, Decoded.guarded_eq_command, Opcode.format, Format.ReservedZero]

/-- R41: no two rows of the map have an opcode in common. -/
theorem op_injOn {r r' : CommandRow} (hr : r ∈ commandMap) (hr' : r' ∈ commandMap) (h : r.op = r'.op) : r = r' :=
  List.inj_on_of_nodup_map (by decide : (commandMap.map CommandRow.op).Nodup) hr hr' h

/-- R41: looking up a row's opcode finds the row's command. -/
theorem opcodeOf_op : ∀ r ∈ commandMap, opcodeOf r.op = some r.command := by
  simp [commandMap, opcodeOf]

theorem opcodeTable_mem {row : OpcodeRow} : row ∈ opcodeTable ↔ ∃ r ∈ commandMap, r.tableRow = row := by
  rw [opcodeTable_eq, List.mem_map]

theorem CommandRow.tableRow_matches {r : CommandRow} {w : Word} :
    r.tableRow.matchesWord w ↔ opField w = r.op ∧ r.command.format.ReservedZero w := Format.masked_eq_iff

/-- R44, R48: the row of a command's mnemonic matches its word. -/
theorem exists_row_of_decode {w : Word} {i : Instr} (h : decode w = .command i) :
    ∃ row ∈ opcodeTable, row.mnemonic = i.mnemonic ∧ row.matchesWord w := by
  obtain ⟨r, hr, hop, hd, hm, -⟩ := decode_eq_command h
  have hzero := Opcode.decode_legal_iff.mp ⟨i, hd⟩
  exact ⟨_, opcodeTable_mem.mpr ⟨r, hr, rfl⟩, hm.symm, CommandRow.tableRow_matches.mpr ⟨hop, hzero⟩⟩

/-- R44: the legal words are those that match a row. -/
theorem decode_legal_iff {w : Word} : (∃ i, decode w = .command i) ↔ ∃ row ∈ opcodeTable, row.matchesWord w := by
  constructor
  · rintro ⟨i, h⟩
    obtain ⟨row, hrow, -, hmatch⟩ := exists_row_of_decode h
    exact ⟨row, hrow, hmatch⟩
  · rintro ⟨row, hrow, hmatch⟩
    obtain ⟨r, hr, rfl⟩ := opcodeTable_mem.mp hrow
    obtain ⟨hop, hzero⟩ := CommandRow.tableRow_matches.mp hmatch
    simp only [decode, hop, opcodeOf_op r hr]
    exact Opcode.decode_legal_iff.mpr hzero

/-- R44: the rows are disjoint, since a word has one opcode and an opcode one row. -/
theorem opcodeTable_disjoint {w : Word} {row row' : OpcodeRow} (hrow : row ∈ opcodeTable) (hrow' : row' ∈ opcodeTable)
    (h : row.matchesWord w) (h' : row'.matchesWord w) : row = row' := by
  obtain ⟨r, hr, rfl⟩ := opcodeTable_mem.mp hrow
  obtain ⟨r', hr', rfl⟩ := opcodeTable_mem.mp hrow'
  obtain ⟨hop, -⟩ := CommandRow.tableRow_matches.mp h
  obtain ⟨hop', -⟩ := CommandRow.tableRow_matches.mp h'
  rw [op_injOn hr hr' (hop.symm.trans hop')]

theorem Opcode.decode_ne_undefinedOpcode (o : Opcode) (w : Word) : o.decode w ≠ .illegal .undefinedOpcode := by
  cases o <;> simp only [Opcode.decode] <;> split <;> simp

theorem decode_undefinedOpcode_iff {w : Word} : decode w = .illegal .undefinedOpcode ↔ (opcodeOf (opField w)).isSome = false := by
  unfold decode
  split
  next h => simp [h]
  next o h => simp [h, o.decode_ne_undefinedOpcode]

theorem opField_toNat (w : Word) : (opField w).toNat = w.toNat / 2 ^ 24 := by
  have := w.isLt
  simp only [opField, BitVec.extractLsb'_toNat, Nat.shiftRight_eq_div_pow]
  omega

/-- R44 (a): the opcodes without a row. -/
theorem opcodeOf_isSome_eq_false_iff : ∀ op : Byte, (opcodeOf op).isSome = false ↔
    (0x04 ≤ op.toNat ∧ op.toNat ≤ 0x0F) ∨ (0x15 ≤ op.toNat ∧ op.toNat ≤ 0x1F) ∨ (0x23 ≤ op.toNat ∧ op.toNat ≤ 0x2F) ∨
      (0x32 ≤ op.toNat ∧ op.toNat ≤ 0x3F) ∨ (0x44 ≤ op.toNat ∧ op.toNat ≤ 0xFF) := by
  decide

/-- R44 (b): a reserved bit is set in the words that have an opcode and match no row. -/
theorem decode_reservedBit_iff {w : Word} : decode w = .illegal .reservedBit ↔
    decode w ≠ .illegal .undefinedOpcode ∧ ∀ row ∈ opcodeTable, ¬ row.matchesWord w := by
  have hlegal := decode_legal_iff (w := w)
  match hd : decode w with
  | .command i =>
    obtain ⟨row, hrow, hmatch⟩ := hlegal.mp ⟨i, hd⟩
    exact ⟨nofun, fun ⟨_, hnone⟩ => absurd hmatch (hnone row hrow)⟩
  | .illegal .undefinedOpcode => simp
  | .illegal .reservedBit =>
    refine ⟨fun _ => ⟨nofun, fun row hrow hmatch => ?_⟩, fun _ => rfl⟩
    obtain ⟨i, hi⟩ := hlegal.mpr ⟨row, hrow, hmatch⟩
    rw [hd] at hi
    cases hi

/-- Settles O3: the table is the opcode map with each format's mask, and a masked word is a row's pattern when it has the row's opcode and
no reserved bit. -/
theorem legalWordsAreTheTableRows : Obligations.LegalWordsAreTheTableRows := by
  refine ⟨fun _ => decode_legal_iff, fun _ _ => exists_row_of_decode, fun _ _ hr _ hr' => opcodeTable_disjoint hr hr',
    fun w => ?_, fun _ => decode_reservedBit_iff, by decide, fun s w why hn hd => ?_⟩
  · rw [decode_undefinedOpcode_iff, opcodeOf_isSome_eq_false_iff, opField_toNat]
  · exact ⟨_, Machine.step_of_illegal hn hd, rfl, rfl, rfl, rfl, rfl, rfl, ⟨rfl, rfl⟩, fun _ _ => rfl⟩

/-- Settles O4: each word is decoded. -/
theorem writtenOutWordsDecode : Obligations.WrittenOutWordsDecode := by
  unfold Obligations.WrittenOutWordsDecode
  decide

/-! ### The assembler (R49, R50) -/

/-- Looking up a key in a table made from rows finds the first row with that key. -/
theorem lookup_map_eq_find? {α β γ : Type} [DecidableEq β] (key : α → β) (val : α → γ) (b : β) (l : List α) :
    (l.map fun x => (key x, val x)).lookup b = (l.find? fun x => key x = b).map val := by
  induction l with
  | nil => rfl
  | cons x l ih =>
    by_cases h : key x = b
    · simp [h]
    · have hne : (b == key x) = false := beq_false_of_ne (Ne.symm h)
      simp [h, hne, List.lookup_cons, ih]

/-- R41: the two tables give a mnemonic the same format. -/
theorem formatOfMnemonic_eq (m : String) : formatOfMnemonic m = (opcodeOfMnemonic m).map Opcode.format := by
  have htable : mnemonicFormats = commandMap.map fun r => (r.mnemonic, r.command.format) := by decide
  rw [formatOfMnemonic, htable, lookup_map_eq_find?, opcodeOfMnemonic, Option.map_map]
  rfl

/-- A checked operand gives a command exactly when it fits. -/
theorem Assembled.guarded_eq_commands {p : Prop} [Decidable p] {i j : Instr} {why : AsmError} :
    (if p then .commands [j] else .rejected why) = Assembled.commands [i] ↔ p ∧ j = i := by
  split <;> simp_all

/-- R49: an opcode takes the operands that fit its format. -/
theorem Opcode.assemble_iff {o : Opcode} {v : Option Nat} :
    (∃ i, o.assemble v = .commands [i]) ↔ operandFits o.format v = true := by
  cases o <;> cases v <;> simp [Opcode.assemble, Opcode.format, operandFits, Assembled.guarded_eq_commands]

/-- R43, R49: what an opcode makes of an operand is spelled with that operand. -/
theorem Opcode.Spells.of_assemble {m : String} {op : Byte} {o : Opcode} {v : Option Nat} {i : Instr} (h : o.Spells m op)
    (ha : o.assemble v = .commands [i]) : i.toAsm = ⟨m, v⟩ := by
  match o, v with
  | .z j, none =>
    cases ha
    exact h.1
  | .a mk, some n | .b mk, some n | .h mk, some n =>
    obtain ⟨hn, rfl⟩ := Assembled.guarded_eq_commands.mp ha
    rw [(h _).1, BitVec.toNat_ofNat, Nat.mod_eq_of_lt hn]

/-- R49: the lines that assemble are the well-formed ones. -/
theorem assemble_iff {l : AsmLine} : (∃ i, l.assemble = .commands [i]) ↔ l.wellFormed = true := by
  rw [AsmLine.wellFormed, formatOfMnemonic_eq, AsmLine.assemble]
  cases opcodeOfMnemonic l.mnemonic with
  | none => simp
  | some o => exact Opcode.assemble_iff

/-- R49: a line that assembles is the one that spells its command. -/
theorem toAsm_of_assemble {l : AsmLine} {i : Instr} (h : l.assemble = .commands [i]) : i.toAsm = l := by
  unfold AsmLine.assemble at h
  split at h
  · cases h
  next o ho =>
    obtain ⟨r, hr, hm, rfl⟩ := opcodeOfMnemonic_eq_some ho
    rw [(commandMap_spells r hr).of_assemble h, hm]

/-- R42, R43: the value of a field fits it and is read back. -/
theorem Assembled.guarded_toNat {n : Nat} (mk : BitVec n → Instr) (v : BitVec n) {why : AsmError} :
    (if v.toNat < 2 ^ n then .commands [mk (BitVec.ofNat n v.toNat)] else .rejected why) = Assembled.commands [mk v] := by
  rw [if_pos v.isLt, BitVec.ofNat_toNat, BitVec.setWidth_eq]

section
variable {m : String}

theorem assemble_of_z {i : Instr} (h : opcodeOfMnemonic m = some (.z i)) : AsmLine.assemble ⟨m, none⟩ = .commands [i] := by
  simp only [AsmLine.assemble, h, Opcode.assemble]

theorem assemble_of_a {mk : Byte → Instr} (h : opcodeOfMnemonic m = some (.a mk)) (v : Byte) :
    AsmLine.assemble ⟨m, some v.toNat⟩ = .commands [mk v] := by
  simp only [AsmLine.assemble, h]
  exact Assembled.guarded_toNat mk v

theorem assemble_of_b {mk : Byte → Instr} (h : opcodeOfMnemonic m = some (.b mk)) (v : Byte) :
    AsmLine.assemble ⟨m, some v.toNat⟩ = .commands [mk v] := by
  simp only [AsmLine.assemble, h]
  exact Assembled.guarded_toNat mk v

theorem assemble_of_h {mk : Half → Instr} (h : opcodeOfMnemonic m = some (.h mk)) (v : Half) :
    AsmLine.assemble ⟨m, some v.toNat⟩ = .commands [mk v] := by
  simp only [AsmLine.assemble, h]
  exact Assembled.guarded_toNat mk v

end

/-- R49: the line that spells a command assembles to it. -/
theorem assemble_toAsm (i : Instr) : i.toAsm.assemble = .commands [i] := by
  cases i with
  | sysNop | sysClrerr | sysRst | ckClr | ckFin | ckPkt | emSer | nrNext => exact assemble_of_z rfl
  | sysRd v | nrDerive v => exact assemble_of_a rfl v
  | ckPutb v | emPayb v => exact assemble_of_b rfl v
  | ckPuth v | emNew v | ldPkt v | ldPay v | nrAdrh v | nrAdrl v => exact assemble_of_h rfl v

/-- Settles O5: the mnemonic selects an opcode, whose format decides on the operand. -/
theorem assemblerAcceptsWhatFits : Obligations.AssemblerAcceptsWhatFits := by
  refine ⟨fun _ => assemble_iff, fun l i h => ?_, assemble_toAsm⟩
  have hline := toAsm_of_assemble h
  exact ⟨congrArg AsmLine.mnemonic hline, congrArg AsmLine.operand hline, decode_encode i⟩

/-- R50: lines that spell commands assemble to them, in order. -/
theorem assembleLines_toAsm (is : List Instr) : assembleLines (is.map Instr.toAsm) = .commands is := by
  induction is with
  | nil => rfl
  | cons i is ih => simp only [List.map_cons, assembleLines, assemble_toAsm, ih, Assembled.append, List.singleton_append]

/-- R50: a pseudo-command whose expansion spells commands assembles to them. -/
theorem Pseudo.assemble_of_expand {q : Pseudo} {is : List Instr} (hfit : q.operandsFit = true) (h : q.expand = is.map Instr.toAsm) :
    q.assemble = .commands is := by
  rw [Pseudo.assemble, if_pos hfit, h, assembleLines_toAsm]

theorem byteLines_ckPutb (bs : List Byte) : byteLines "CK.PUTB" (bs.map (·.toNat)) = (bs.map Instr.ckPutb).map Instr.toAsm := by
  simp [byteLines, Instr.toAsm, Instr.mnemonic, Instr.operand]

theorem byteLines_emPayb (bs : List Byte) : byteLines "EM.PAYB" (bs.map (·.toNat)) = (bs.map Instr.emPayb).map Instr.toAsm := by
  simp [byteLines, Instr.toAsm, Instr.mnemonic, Instr.operand]

theorem append_bytes_toNat (a b : Byte) : (a ++ b : Half).toNat = a.toNat * 256 + b.toNat := by
  rw [BitVec.toNat_append, ← Nat.shiftLeft_add_eq_or_of_lt b.isLt, Nat.shiftLeft_eq]

theorem nrAdrh_toAsm (a b : Byte) : (Instr.nrAdrh (a ++ b)).toAsm = ⟨"NR.ADRH", some (a.toNat * 256 + b.toNat)⟩ := by
  rw [← append_bytes_toNat]
  rfl

theorem nrAdrl_toAsm (a b : Byte) : (Instr.nrAdrl (a ++ b)).toAsm = ⟨"NR.ADRL", some (a.toNat * 256 + b.toNat)⟩ := by
  rw [← append_bytes_toNat]
  rfl

theorem address_operandsFit (a b c d : Byte) : (Pseudo.nrAddr a.toNat b.toNat c.toNat d.toNat).operandsFit = true := by
  simp only [Pseudo.operandsFit, decide_eq_true a.isLt, decide_eq_true b.isLt, decide_eq_true c.isLt, decide_eq_true d.isLt, Bool.and_self]

/-- Settles O6: each expansion is the list of the lines that spell the commands. -/
theorem pseudoCommandExpansions : Obligations.PseudoCommandExpansions := by
  refine ⟨fun bs hbs => ?_, fun bs => ?_, fun bs hbs => ?_, fun v bs => ?_, fun a b c d => ?_, fun a b c d p => ?_⟩
  · exact Pseudo.assemble_of_expand (by simpa [Pseudo.operandsFit] using hbs) (byteLines_ckPutb bs)
  · refine Pseudo.assemble_of_expand rfl ?_
    simp only [Pseudo.expand, byteLines_ckPutb, List.map_cons, List.map_append, List.map_nil]
    rfl
  · exact Pseudo.assemble_of_expand (by simpa [Pseudo.operandsFit] using hbs) (byteLines_emPayb bs)
  · exact Pseudo.assemble_of_expand rfl (congrArg _ (byteLines_emPayb bs))
  · refine Pseudo.assemble_of_expand (address_operandsFit a b c d) ?_
    simp only [Pseudo.expand, List.map_cons, List.map_nil, nrAdrh_toAsm, nrAdrl_toAsm]
  · refine Pseudo.assemble_of_expand (address_operandsFit a b c d) ?_
    simp only [Pseudo.expand, List.map_cons, List.map_nil, nrAdrh_toAsm, nrAdrl_toAsm]
    rfl

end Sys2Proof

namespace Sys2Proof.Machine

/-! ### The response to a command word (R47) -/

/-- A response whose code is that of success or of an error of R90, with value 0 for an error. -/
def Response.Legal (r : Response) : Prop := r.code.toNat ≤ 7 ∧ (r.code ≠ 0 → r.val = 0)

theorem raise_legal {e : ErrorCode} {s t : State} (h : raise e s = .next t) : ∃ r, t.host.rsp = some r ∧ r.Legal := by
  rw [raise_next.mp h]
  exact ⟨_, rfl, e.code_range.2, fun _ => rfl⟩

/-- R47: executing a command puts out a response. -/
theorem exec_legal {i : Instr} {s t : State} (h : exec i s = .next t) : ∃ r, t.host.rsp = some r ∧ r.Legal := by
  obtain ⟨-, e, he⟩ | ⟨-, v, hv⟩ := exec_next h
  · exact raise_legal he
  · rw [respond_next.mp hv]
    exact ⟨_, rfl, Nat.zero_le _, fun hne => absurd rfl hne⟩

/-- Settles O17: a legal word is executed and an illegal one raises, and both end in a response. -/
theorem everyWordGetsOneResponse : Obligations.EveryWordGetsOneResponse := by
  intro s t w hn h
  match hd : decode w with
  | .command i => exact exec_legal ((step_of_command hn hd).symm.trans h)
  | .illegal why => exact raise_legal ((step_of_illegal hn hd).symm.trans h)

/-! ### Runs of commands -/

theorem execList_cons_of_next {i : Instr} {is : List Instr} {s u : State} (h : exec i s = .next u) :
    execList (i :: is) s = execList is u := by
  simp only [execList, h]

theorem execList_append_of_next {is js : List Instr} {s u : State} (h : execList is s = .next u) :
    execList (is ++ js) s = execList js u := by
  induction is generalizing s with
  | nil =>
    cases h
    rfl
  | cons i is ih =>
    simp only [List.cons_append, execList] at h ⊢
    split at h
    · exact ih h
    · cases h
    · cases h

/-- R54: CK.PUTB of each byte pushes the bytes; only the response of the last one stands. -/
theorem execList_ckPutb (bs : List Byte) (s : State) :
    ∃ r, execList (bs.map .ckPutb) s = .next ({ s with ck := s.ck.pushBytes bs }.withRsp r) := by
  induction bs generalizing s with
  | nil => exact ⟨s.host.rsp, rfl⟩
  | cons b bs ih => exact ih ({ s with ck := s.ck.pushByte b }.withRsp (some ⟨0, 0⟩))

/-- R50: the commands of CK.SUM do to the checksum unit what summing the buffer does. -/
theorem execList_ckSum (bs : List Byte) (s : State) : execList (.ckClr :: (bs.map .ckPutb ++ [.ckFin])) s =
    .next ({ s with ck := s.ck.sumBuffer bs }.withRsp (some ⟨0, (s.ck.sumBuffer bs).csum.setWidth 32⟩)) := by
  obtain ⟨r, hr⟩ := execList_ckPutb bs ({ s with ck := s.ck.clear }.withRsp (some ⟨0, 0⟩))
  rw [execList_cons_of_next rfl, execList_append_of_next hr]
  rfl

/-- Settles O39: the sum of a buffer is its checksum, and its stream the buffer. -/
theorem checksumCommandsComputeTheSourcesChecksum : Obligations.ChecksumCommandsComputeTheSourcesChecksum := by
  intro bs s
  have hcsum := s.ck.sumBuffer_csum bs
  refine ⟨_, execList_ckSum bs s, ?_, hcsum, streams_sumBuffer s.ck bs, rfl, rfl, rfl, rfl, ⟨rfl, rfl⟩, fun _ _ => rfl⟩
  rw [State.withRsp_rsp, hcsum]

/-! ### The message of a whole payload -/

theorem Memory.slice_succ (m : Memory) (n : Nat) : m.slice (n + 1) = m.slice n ++ [m.read n] := by
  simp [Memory.slice, List.range_succ]

/-- R65: appending a byte appends it to the payload. -/
theorem EmUnit.payload_appended {payMax : Fin 65528} {e : EmUnit} (hpay : e.pay.wf = true) (hroom : e.plen.toNat < payMax.val) (b : Byte) :
    (e.appended b).payload = e.payload ++ [b] := by
  rw [payload, appended_plen hroom, Memory.slice_succ]
  congr 1
  · exact Memory.slice_congr fun a ha => Memory.read_write_other _ _ (Nat.ne_of_lt ha)
  · exact congrArg (fun x => [x]) (Memory.read_write_same hpay _ b)

/-- R65: EM.PAYB appends while there is room. -/
theorem exec_emPayb_room {s : State} (hroom : s.em.plen.toNat < s.cfg.payMax.val) (b : Byte) :
    exec (.emPayb b) s = complete { s with em := s.em.appended b } := by
  have hin : s.em.plen.toNat + 1 ≤ s.capacity .pay := hroom
  rw [exec_emPayb, if_neg (Nat.ne_of_lt hroom), guardCapacity_inside hin]
  rfl

/-- R66: EM.SER serializes a payload that fits. -/
theorem exec_emSer_fits {s : State} (hfits : s.em.plen.toNat ≤ s.cfg.payMax.val) :
    exec .emSer s = respond ((serialSum s).csum.setWidth 32) (effectOf .emSer s) := by
  have hpkt : 8 + s.em.plen.toNat ≤ s.capacity .pkt := by
    rw [State.capacity_pkt, Nat.add_comm]
    exact Nat.add_le_add_right hfits 8
  rw [exec_emSer, guardCapacity_inside hfits, guardCapacity_inside hpkt]

/-- R65: the message `e'` is `e` with the bytes `bs` appended to its payload. -/
structure EmUnit.Extends (e e' : EmUnit) (bs : List Byte) : Prop where
  payload_eq : e'.payload = e.payload ++ bs
  plen_eq : e'.plen.toNat = e.plen.toNat + bs.length
  emid_eq : e'.emid = e.emid
  pkt_eq : e'.pkt = e.pkt

/-- R65: EM.PAYB of each byte appends the bytes while they fit, and changes nothing but the message. -/
theorem execList_emPayb (bs : List Byte) {s : State} (hpay : s.em.pay.wf = true)
    (hroom : s.em.plen.toNat + bs.length ≤ s.cfg.payMax.val) :
    ∃ e r, execList (bs.map .emPayb) s = .next ({ s with em := e }.withRsp r) ∧ s.em.Extends e bs := by
  induction bs generalizing s with
  | nil => exact ⟨s.em, s.host.rsp, rfl, by simp, rfl, rfl, rfl⟩
  | cons b bs ih =>
    rw [List.length_cons] at hroom
    have hlt : s.em.plen.toNat < s.cfg.payMax.val := by omega
    have hplen := EmUnit.appended_plen hlt b
    obtain ⟨e, r, hrun, he⟩ := ih (s := { s with em := s.em.appended b }.withRsp (some ⟨0, 0⟩)) (Memory.wf_write hpay _ _)
      (by simp only [State.withRsp_em, State.withRsp_cfg, hplen]; omega)
    refine ⟨e, r, (execList_cons_of_next (exec_emPayb_room hlt b)).trans hrun, ?_, ?_, he.emid_eq, he.pkt_eq⟩
    · rw [he.payload_eq, State.withRsp_em, EmUnit.payload_appended hpay hlt, List.append_assoc, List.singleton_append]
    · rw [he.plen_eq, State.withRsp_em, hplen, List.length_cons]
      omega

/-- R50, R64, R65: EM.REQ of a payload that fits leaves a message with that payload and identifier, and changes nothing but the message. -/
theorem execList_emReq (v : Half) {bs : List Byte} {s : State} (hpay : s.em.pay.wf = true) (hfits : bs.length ≤ s.cfg.payMax.val) :
    ∃ e r, execList (.emNew v :: bs.map .emPayb) s = .next ({ s with em := e }.withRsp r) ∧
      e.payload = bs ∧ e.plen.toNat = bs.length ∧ e.emid = v ∧ e.pkt = s.em.pkt := by
  have hroom : (s.em.renewed v).plen.toNat + bs.length ≤ s.cfg.payMax.val := (Nat.zero_add _).trans_le hfits
  obtain ⟨e, r, hrun, he⟩ := execList_emPayb bs (s := { s with em := s.em.renewed v }.withRsp (some ⟨0, 0⟩)) hpay hroom
  exact ⟨e, r, hrun, he.payload_eq, he.plen_eq.trans (Nat.zero_add _), he.emid_eq, he.pkt_eq⟩

/-- Settles O45: EM.REQ leaves the message, and EM.SER serializes it with the checksum of its packet. -/
theorem echoCommandsBuildTheSourcesPacket : Obligations.EchoCommandsBuildTheSourcesPacket := by
  intro v bs s hpay hpkt hfits
  obtain ⟨e, r, hrun, rfl, hplen, rfl, hkept⟩ := execList_emReq v hpay hfits
  have hwf : e.pkt.wf = true := hkept ▸ hpkt
  have hin : e.plen.toNat ≤ s.cfg.payMax.val := hplen.trans_le hfits
  have hcsum : (serialSum ({ s with em := e }.withRsp r)).csum = checksum (packetOf 0 e.payload) := serialSum_csum hwf
  rw [← List.cons_append, execList_append_of_next hrun, execList_cons_of_next (exec_emSer_fits hin), hcsum]
  refine ⟨_, rfl, ?_, rfl, rfl, rfl, rfl, rfl⟩
  exact (EmUnit.packet_serialized hwf hin _).trans (by rw [hcsum])

/-! ### The range of a loaded address (R70) -/

/-- R72, R73: the two loads replace the whole address. -/
theorem withAddrLow_withAddrHigh (x : Word) (hi lo : Half) : withAddrLow (withAddrHigh x hi) lo = hi ++ lo := by
  apply BitVec.eq_of_toNat_eq
  rw [withAddrLow_toNat, withAddrHigh_toNat, BitVec.toNat_append, ← Nat.shiftLeft_add_eq_or_of_lt lo.isLt, Nat.shiftLeft_eq]
  omega

/-- R8, R25: an address is its four bytes. -/
theorem append_halves (a b c d : Byte) : ((a ++ b : Half) ++ (c ++ d : Half) : Word) = a ++ b ++ c ++ d :=
  (BitVec.append_assoc ..).symm

/-- R74: NR.DERIVE does what `deriveRange` of `ADDR` says. -/
theorem execNrDerive_deriveRange (p : Byte) (s : State) :
    (∃ e, deriveRange s.nr.addr p.toNat = .fails e ∧ execNrDerive p s = raise e (dropRange s)) ∨
      (deriveRange s.nr.addr p.toNat = .range (s.nr.derived p).startA (s.nr.derived p).endA ∧
        execNrDerive p s = complete { s with nr := s.nr.derived p }) := by
  by_cases hhigh : 32 < p
  · exact .inl ⟨.invalidPrefix, if_pos hhigh, if_pos hhigh⟩
  by_cases hlow : p < 24
  · exact .inl ⟨.subnetTooLarge, (if_neg hhigh).trans (if_pos hlow), (if_neg hhigh).trans (if_pos hlow)⟩
  · exact .inr ⟨s.nr.derived_range (BitVec.not_lt.mp hlow) (BitVec.not_lt.mp hhigh), (if_neg hhigh).trans (if_neg hlow)⟩

/-- R50, R72, R73: NR.ADDR loads the address and changes nothing else. -/
theorem execList_nrAddr (hi lo : Half) (is : List Instr) (s : State) : execList (.nrAdrh hi :: .nrAdrl lo :: is) s =
    execList is ({ s with nr := { s.nr with addr := hi ++ lo } }.withRsp (some ⟨0, 0⟩)) := by
  rw [← withAddrLow_withAddrHigh s.nr.addr]
  rfl

/-- Settles O53: the loaded address is the one derived from, and NR.DERIVE does what `deriveRange` of it says. -/
theorem rangeCommandsComputeDeriveRange : Obligations.RangeCommandsComputeDeriveRange := by
  intro a b c d p s
  rw [execList_nrAddr, append_halves]
  obtain ⟨e, (hderive : deriveRange (a ++ b ++ c ++ d) p.toNat = _), hexec⟩ |
      ⟨(hderive : deriveRange (a ++ b ++ c ++ d) p.toNat = _), hexec⟩ :=
    execNrDerive_deriveRange p ({ s with nr := { s.nr with addr := a ++ b ++ c ++ d } }.withRsp (some ⟨0, 0⟩))
  · rw [hderive]
    exact ⟨_, execList_cons_of_next hexec, rfl, rfl, fun _ _ => rfl, rfl, rfl, rfl⟩
  · rw [hderive]
    exact ⟨_, execList_cons_of_next hexec, rfl, rfl, fun _ _ => rfl, rfl, rfl, rfl, rfl⟩

end Sys2Proof.Machine
end

section
/-! PROOFS. Family 40_checksum: the stream the checksum unit represents (O28, O29, O30), the CK commands (O31, O32, O33, O34, O35), and the
self-verification of a buffer that carries its checksum (O36). -/

namespace Sys2Proof.Machine

/-! ### The stream and the commands (R51) -/

theorem streams_reset : Streams CkUnit.reset [] := streams_clear .reset

/-- R66: EM.SER leaves the unit with the stream of the packet whose checksum slot is zero. -/
theorem streams_serialSum {s : State} (hpkt : s.em.pkt.wf = true) : Streams (serialSum s) (unsummedPacket s.em) := by
  rw [serialSum, EmUnit.slice_serialBuffer hpkt]
  exact streams_sumBuffer s.ck _

/-- R51: each command's effect on the unit is its effect on the stream. -/
theorem Streams.effectOf {s : State} {bs : List Byte} (h : Streams s.ck bs) (hpkt : s.em.pkt.wf = true) (i : Instr) :
    Streams (effectOf i s).ck (streamAfter i s bs) := by
  cases i with
  | ckClr => exact streams_clear s.ck
  | sysRst => exact streams_reset
  | ckPutb b => exact h.pushByte b
  | ckPuth w => exact h.pushBytes [hiByte w, loByte w]
  | ckPkt => exact streams_sumBuffer s.ck s.em.packet
  | emSer => exact streams_serialSum hpkt
  | ckFin => exact h.finalise
  | sysNop | sysRd | sysClrerr | emNew | emPayb | ldPkt | ldPay | nrAdrh | nrAdrl | nrDerive | nrNext => exact h

/-- R30: a command that can fail pushes nothing. -/
theorem streamAfter_of_mayFail {i : Instr} (hi : .err ∈ writesOnFailure i) (s : State) (bs : List Byte) : streamAfter i s bs = bs := by
  cases i with
  | ckClr | sysRst | ckPutb | ckPuth | ckPkt | emSer => cases hi
  | _ => rfl

theorem beforeRaise_ck (i : Instr) (s : State) : (beforeRaise i s).ck = s.ck := by cases i <;> rfl

/-- Settles O28: a command that fails leaves unit and stream alone, and one that succeeds has the same effect on both. -/
theorem everyCommandKeepsTheStream : Obligations.EveryCommandKeepsTheStream := by
  refine ⟨streams_reset, fun i s t bs hpkt hstream h => ?_⟩
  obtain ⟨hmay, e, he⟩ | ⟨-, v, hv⟩ := exec_next h
  · rw [raise_next.mp he, State.withRsp_ck, beforeRaise_ck, streamAfter_of_mayFail hmay]
    exact hstream
  · rw [respond_next.mp hv, State.withRsp_ck]
    exact hstream.effectOf hpkt i

/-! ### The frame of the CK commands -/

/-- A response and another checksum unit are inside the frame. -/
theorem onlyCk_withCk (s : State) (c : CkUnit) (r : Option Response) : OnlyCk s ({ s with ck := c }.withRsp r) :=
  ⟨rfl, rfl, rfl, rfl, ⟨rfl, rfl⟩, fun _ _ => rfl⟩

/-- Settles O29: what finalising gives is a function of the stream, and each CK command that answers replaces the checksum unit. -/
theorem finalisationGivesTheStreamsChecksum : Obligations.FinalisationGivesTheStreamsChecksum := by
  refine ⟨fun s bs hstream => ?_, fun i s t hi h => ?_⟩
  · have hresult : s.ck.finalise.csum = checksum bs := hstream.result_eq
    rw [← hresult]
    exact ⟨_, ⟨rfl, rfl⟩, rfl, hresult ▸ checksum_toNat bs⟩
  · obtain ⟨hmay, -⟩ | ⟨-, v, hv⟩ := exec_next h
    · obtain rfl | ⟨b, rfl⟩ | ⟨w, rfl⟩ | rfl | rfl := hi <;> cases hmay
    · rw [respond_next.mp hv]
      obtain rfl | ⟨b, rfl⟩ | ⟨w, rfl⟩ | rfl | rfl := hi <;> exact onlyCk_withCk s _ _

/-! ### The exact accumulator (R58) -/

theorem wsum_cons_cons (b c : Byte) (bs : List Byte) : wsum (b :: c :: bs) = b.toNat * 256 + c.toNat + wsum bs := rfl

/-- R11, R58: no word is above `0xFFFF`. -/
theorem wsum_le (bs : List Byte) : wsum bs ≤ 65535 * ((bs.length + 1) / 2) := by
  induction bs using wsum.induct with
  | case1 => exact Nat.zero_le _
  | case2 b =>
    have hb := b.isLt
    simp only [wsum, List.length_singleton]
    omega
  | case3 b c bs ih =>
    have hb := b.isLt
    have hc := c.isLt
    rw [wsum_cons_cons, List.length_cons, List.length_cons]
    omega

/-- R51: after an even number of bytes nothing is held. -/
theorem Streams.even {c : CkUnit} {bs : List Byte} (h : Streams c bs) (hlen : bs.length % 2 = 0) : c.odd = false := by
  simp [h.odd_iff, hlen]

/-- R51, R58: after an even number of bytes `ACC` is the word sum, if that fits 32 bits. -/
theorem Streams.acc_eq_wsum {c : CkUnit} {bs : List Byte} (h : Streams c bs) (hlen : bs.length % 2 = 0) (hfits : wsum bs < 2 ^ 32) :
    c.acc.toNat = wsum bs := by
  have hsum := h.sum_eq
  rw [h.even hlen, if_neg Bool.false_ne_true, Nat.add_zero] at hsum
  rwa [Nat.mod_eq_of_lt c.acc.isLt, Nat.mod_eq_of_lt hfits] at hsum

/-- R54: at most one byte at an even index completes no word. -/
theorem CkUnit.pushBytes_acc_short {c : CkUnit} (heven : c.odd = false) {bs : List Byte} (hlen : bs.length ≤ 1) :
    (c.pushBytes bs).acc = c.acc := by
  match bs with
  | [] => rfl
  | [b] => rw [pushBytes_cons, pushByte_even heven, pushBytes_nil]

/-- R58: `ACC` is the word sum of an even number of bytes, and keeps it while one more byte is held. -/
theorem CkUnit.acc_pushBytes_append (c : CkUnit) {xs ys : List Byte} (hwords : xs.length % 2 = 0) (hfits : wsum xs < 2 ^ 32)
    (hheld : ys.length ≤ 1) : (c.clear.pushBytes (xs ++ ys)).acc.toNat = wsum xs := by
  have hstream := streams_clear_pushBytes c xs
  rw [pushBytes_append, pushBytes_acc_short (hstream.even hwords) hheld]
  exact hstream.acc_eq_wsum hwords hfits

/-- Settles O30: the completed words are those of the first `2 * (len / 2)` bytes; 65537 words of at most `0xFFFF` sum to at most `2 ^ 32 - 1`. -/
theorem accumulatorIsExactUpTo131074Bytes : Obligations.AccumulatorIsExactUpTo131074Bytes := by
  intro c bs hlen
  have heven : (bs.take (2 * (bs.length / 2))).length % 2 = 0 := by
    rw [List.length_take]
    omega
  have hheld : (bs.drop (2 * (bs.length / 2))).length ≤ 1 := by
    rw [List.length_drop]
    omega
  have hfits : wsum (bs.take (2 * (bs.length / 2))) < 2 ^ 32 := by
    have hbound := wsum_le (bs.take (2 * (bs.length / 2)))
    rw [List.length_take] at hbound
    omega
  have hacc := c.acc_pushBytes_append heven hfits hheld
  rwa [List.take_append_drop] at hacc

/-! ### The commands that push bytes (R53, R54, R55) -/

/-- Settles O31: the clear writes the three registers of the stream. -/
theorem ckClrStartsANewStream : Obligations.CkClrStartsANewStream :=
  fun s => ⟨_, ⟨rfl, rfl⟩, onlyCk_withCk s _ _, rfl, rfl, rfl, rfl, rfl⟩

/-- R54: the completed word is added modulo `2 ^ 32`. -/
theorem CkUnit.pushByte_acc_odd {c : CkUnit} (hodd : c.odd = true) (b : Byte) :
    (c.pushByte b).acc.toNat = (c.acc.toNat + (c.hold.toNat * 256 + b.toNat)) % 2 ^ 32 := by
  rw [pushByte_odd hodd, BitVec.toNat_add, pairWord_toNat]

/-- Settles O32, by the two phases of a push. -/
theorem ckPutbPushesOneByte : Obligations.CkPutbPushesOneByte := by
  intro b s
  refine ⟨_, ⟨rfl, rfl⟩, onlyCk_withCk s _ _, s.ck.pushByte_csum b, s.ck.pushByte_z b, fun heven => ?_, fun hodd => ?_⟩
  · rw [State.withRsp_ck, CkUnit.pushByte_even heven]
    exact ⟨rfl, rfl, rfl⟩
  · refine ⟨CkUnit.pushByte_acc_odd hodd b, ?_⟩
    rw [State.withRsp_ck, CkUnit.pushByte_odd hodd]
    exact ⟨rfl, rfl⟩

theorem ofNat_div_eq_hiByte (w : Half) : BitVec.ofNat 8 (w.toNat / 256) = hiByte w := by
  rw [← hiByte_toNat, BitVec.ofNat_toNat, BitVec.setWidth_eq]

theorem ofNat_mod_eq_loByte (w : Half) : BitVec.ofNat 8 (w.toNat % 256) = loByte w := by
  rw [← loByte_toNat, BitVec.ofNat_toNat, BitVec.setWidth_eq]

/-- R33: a halfword is its two bytes. -/
theorem hiByte_loByte_toNat (w : Half) : (hiByte w).toNat * 256 + (loByte w).toNat = w.toNat := by
  rw [hiByte_toNat, loByte_toNat]
  omega

/-- R55: at an even index the two bytes are one word. -/
theorem CkUnit.pushHalf_even {c : CkUnit} (heven : c.odd = false) (w : Half) :
    ((c.pushByte (hiByte w)).pushByte (loByte w)).acc.toNat = (c.acc.toNat + w.toNat) % 2 ^ 32 ∧
      ((c.pushByte (hiByte w)).pushByte (loByte w)).hold = 0 := by
  rw [pushByte_even heven, pushByte_acc_odd rfl, hiByte_loByte_toNat, pushByte_odd rfl]
  exact ⟨rfl, rfl⟩

/-- R55: at an odd index the high byte completes a word and the low byte is held. -/
theorem CkUnit.pushHalf_odd {c : CkUnit} (hodd : c.odd = true) (w : Half) :
    ((c.pushByte (hiByte w)).pushByte (loByte w)).acc.toNat = (c.acc.toNat + (c.hold.toNat * 256 + w.toNat / 256)) % 2 ^ 32 ∧
      ((c.pushByte (hiByte w)).pushByte (loByte w)).hold.toNat = w.toNat % 256 := by
  have heven : (c.pushByte (hiByte w)).odd = false := by rw [odd_pushByte, hodd, Bool.not_true]
  rw [pushByte_even heven, ← hiByte_toNat]
  exact ⟨pushByte_acc_odd hodd _, loByte_toNat w⟩

/-- Settles O33: both ways push the same two bytes. -/
theorem ckPuthPushesTwoBytes : Obligations.CkPuthPushesTwoBytes := by
  intro w s
  rw [ofNat_div_eq_hiByte, ofNat_mod_eq_loByte]
  have hodd : ((s.ck.pushByte (hiByte w)).pushByte (loByte w)).odd = s.ck.odd := by simp
  have hcsum : ((s.ck.pushByte (hiByte w)).pushByte (loByte w)).csum = s.ck.csum := by simp
  have hz : ((s.ck.pushByte (hiByte w)).pushByte (loByte w)).z = s.ck.z := by simp
  exact ⟨_, _, rfl, rfl, ⟨rfl, rfl⟩, onlyCk_withCk s _ _, hcsum, hz, hodd, fun h => CkUnit.pushHalf_even h w,
    fun h => CkUnit.pushHalf_odd h w⟩

/-! ### Finalising (R56, R57) -/

/-- R56: the truncated and complemented sum as a number. -/
theorem CkUnit.result_toNat (c : CkUnit) :
    c.result.toNat = 0xFFFF - (c.acc.toNat + (if c.odd then c.hold.toNat * 256 else 0)) % 2 ^ 32 % 65536 := by
  rw [result, BitVec.toNat_not, BitVec.extractLsb'_toNat, Nat.shiftRight_zero, paddedSum_toNat]

/-- R17: `Z` as the condition on `CSUM`. -/
theorem zFlag_eq_decide (c : Half) : zFlag c = decide (c = 0) := rfl

theorem zFlag_eq_decide_toNat (c : Half) : zFlag c = decide (c.toNat = 0) :=
  decide_eq_decide.mpr BitVec.toNat_inj.symm

/-- Settles O34: the result as a number decides the response, `CSUM` and `Z`. -/
theorem ckFinTruncatesAndComplements : Obligations.CkFinTruncatesAndComplements := by
  intro s sum c
  have hresult : s.ck.finalise.csum.toNat = c := s.ck.result_toNat
  rw [← hresult, BitVec.ofNat_toNat]
  exact ⟨_, ⟨rfl, rfl⟩, onlyCk_withCk s _ _, rfl, zFlag_eq_decide_toNat _, rfl, rfl, rfl⟩

/-- Settles O35: inside the capacity CK.PKT sums the packet. -/
theorem ckPktSumsThePacket : Obligations.CkPktSumsThePacket := by
  intro s hfits
  have hcsum := s.ck.sumBuffer_csum s.em.packet
  have hstream := streams_sumBuffer s.ck s.em.packet
  have hodd := hstream.odd_iff
  rw [EmUnit.packet, Memory.length_slice] at hodd
  rw [← hcsum]
  exact ⟨_, ⟨guardCapacity_inside hfits _, rfl⟩, onlyCk_withCk s _ _, hstream, hodd, rfl, zFlag_eq_decide _⟩

/-! ### Self-verification (R59) -/

/-- R11: two bytes put over the word at offsets `2k` and `2k + 1` replace that word in the sum. -/
theorem wsum_set_word {bs : List Byte} {k : Nat} {x y : Byte} (hx : bs[2 * k]? = some x) (hy : bs[2 * k + 1]? = some y)
    (hi lo : Byte) : wsum ((bs.set (2 * k) hi).set (2 * k + 1) lo) + (x.toNat * 256 + y.toNat) =
      wsum bs + (hi.toNat * 256 + lo.toNat) := by
  induction k generalizing bs with
  | zero =>
    match bs with
    | b :: c :: bs =>
      cases hx
      cases hy
      show wsum (hi :: lo :: bs) + _ = _
      rw [wsum_cons_cons, wsum_cons_cons]
      omega
  | succ k ih =>
    match bs with
    | b :: c :: bs =>
      have hword := ih (bs := bs) hx hy
      show wsum (b :: c :: (bs.set (2 * k) hi).set (2 * k + 1) lo) + _ = _
      rw [wsum_cons_cons, wsum_cons_cons]
      omega

/-- R59: a buffer whose word sum is that of `bs` plus the checksum of `bs` verifies. -/
theorem checksum_eq_zero_of_wsum {bs bs' : List Byte} (h : wsum bs' = wsum bs + (checksum bs).toNat) : checksum bs' = 0 := by
  apply BitVec.eq_of_toNat_eq
  have hzero : (0 : Half).toNat = 0 := rfl
  rw [checksum_toNat] at h ⊢
  omega

/-- R59: a buffer with its checksum in a word-aligned zero slot verifies. -/
theorem checksum_set_checksum {bs : List Byte} {k : Nat} (hx : bs[2 * k]? = some 0) (hy : bs[2 * k + 1]? = some 0) :
    checksum ((bs.set (2 * k) (hiByte (checksum bs))).set (2 * k + 1) (loByte (checksum bs))) = 0 := by
  have hsum := wsum_set_word hx hy (hiByte (checksum bs)) (loByte (checksum bs))
  rw [hiByte_loByte_toNat] at hsum
  exact checksum_eq_zero_of_wsum hsum

/-- R66: EM.SER that answers leaves the packet of the payload, inside the capacity, with its checksum in the slot. -/
theorem exec_emSer_packet {s t : State} (hpkt : s.em.pkt.wf = true) (h : exec .emSer s = .next t) :
    t.em.pklen.toNat ≤ t.cfg.payMax.val + 8 ∧ t.em.packet = packetOf (checksum (packetOf 0 s.em.payload)) s.em.payload := by
  obtain ⟨hfits, hrest⟩ := guardCapacity_next.mp (exec_emSer s ▸ h)
  obtain ⟨hroom, hanswer⟩ := guardCapacity_next.mp hrest
  rw [respond_next.mp hanswer, ← serialSum_csum hpkt]
  refine ⟨?_, EmUnit.packet_serialized hpkt hfits _⟩
  have hpklen := EmUnit.serialized_pklen hfits (serialSum s).csum
  exact hpklen.trans_le (hroom.trans_eq s.capacity_pkt)

/-- Settles O36: the checksum in its slot makes the word sum end in `0xFFFF`, and EM.SER puts it there. -/
theorem selfVerification : Obligations.SelfVerification := by
  refine ⟨fun _ _ => checksum_set_checksum, fun s t hpkt h => ?_⟩
  obtain ⟨hfits, hpacket⟩ := exec_emSer_packet hpkt h
  have hzero : checksum t.em.packet = 0 := by rw [hpacket, checksum_packetOf_checksum]
  obtain ⟨u, hanswers, -, -, -, -, hz⟩ := ckPktSumsThePacket t hfits
  rw [hzero] at hanswers hz
  exact ⟨u, hanswers, hz⟩

end Sys2Proof.Machine
end

section
/-! PROOFS. Family 41_echo_message: EM.NEW (O40), EM.PAYB (O41), EM.SER (O42), and that the packet is a function of the payload (O43). -/

namespace Sys2Proof.Machine

/-- A response and another message are inside the frame. -/
theorem onlyEm_withEm (s : State) (e : EmUnit) (r : Option Response) : OnlyEm s ({ s with em := e }.withRsp r) :=
  ⟨rfl, rfl, rfl, rfl, ⟨rfl, rfl⟩⟩

/-- R92: an error code and a response are inside the frame. -/
theorem onlyErr_withErr (s : State) (c : Byte) (r : Option Response) : OnlyErr s ({ s with err := c }.withRsp r) :=
  ⟨rfl, rfl, rfl, rfl, ⟨rfl, rfl⟩, fun _ _ => rfl⟩

/-! ### Building the payload (R64, R65) -/

/-- Settles O40: the new message shares both memories and `PKLEN` with the old one. -/
theorem emNewConstructsARequest : Obligations.EmNewConstructsARequest :=
  fun v s => ⟨_, ⟨rfl, rfl⟩, onlyEm_withEm s (s.em.renewed v) _, fun _ _ => rfl, rfl, rfl, rfl, rfl, s.em.renewed_pklen v⟩

/-- R65: EM.PAYB raises `PayloadFull` when the payload has `PAY_MAX` bytes. -/
theorem exec_emPayb_full {s : State} (hfull : s.em.plen.toNat = s.cfg.payMax.val) (b : Byte) :
    exec (.emPayb b) s = raise .payloadFull s := by
  rw [exec_emPayb, if_pos hfull]

/-- R65: appending writes one byte of `PAY`. -/
theorem EmUnit.appended_pay_same {e : EmUnit} (hpay : e.pay.wf = true) (b : Byte) : (e.appended b).pay.read e.plen.toNat = b :=
  Memory.read_write_same hpay _ b

theorem EmUnit.appended_pay_other (e : EmUnit) (b : Byte) {a : Nat} (ha : a ≠ e.plen.toNat) :
    (e.appended b).pay.read a = e.pay.read a :=
  Memory.read_write_other _ _ ha

/-- Settles O41: a full payload raises the error, one with room gets the byte. -/
theorem emPaybAppendsAByte : Obligations.EmPaybAppendsAByte := by
  refine fun b s => ⟨fun hfull => ?_, fun hpay hroom => ?_⟩
  · exact ⟨_, ⟨exec_emPayb_full hfull b, rfl⟩, rfl, onlyErr_withErr s _ _⟩
  · have hsame := EmUnit.appended_pay_same hpay b
    have hother := fun a => s.em.appended_pay_other b (a := a)
    have hplen := EmUnit.appended_plen hroom b
    exact ⟨_, ⟨exec_emPayb_room hroom b, rfl⟩, onlyEm_withEm s _ _, hsame, hother, fun _ => rfl, hplen, rfl,
      s.em.appended_emid b, s.em.appended_emseq b, s.em.appended_pklen b⟩

/-! ### Serializing (R66, R68) -/

/-- R39, R66: the checksum of the packet whose slot is zero, as a number. -/
theorem checksum_packetOf_zero_toNat (payload : List Byte) :
    (checksum (packetOf 0 payload)).toNat = 0xFFFF - (0x0800 + wsum payload) % 65536 := by
  rw [checksum_toNat, wsum_packetOf]
  rfl

/-- R17, R66: EM.SER finalises the unit, so `Z` is the condition on `CSUM`. -/
theorem serialSum_z (s : State) : (serialSum s).z = decide ((serialSum s).csum = 0) := zFlag_eq_decide _

/-- Settles O42: the unit sums the packet with a zero slot, and its result is what goes into the slot, `EMCK` and the response. -/
theorem emSerSerializesTheMessage : Obligations.EmSerSerializesTheMessage := by
  intro s hpkt hfits payload c
  refine ⟨checksum_packetOf_zero_toNat payload, ?_⟩
  have hcsum : (serialSum s).csum = c := serialSum_csum hpkt
  rw [← hcsum]
  have hpacket := EmUnit.packet_serialized hpkt hfits (serialSum s).csum
  have hpklen := EmUnit.serialized_pklen hfits (serialSum s).csum
  have hstream : Streams (serialSum s) (packetOf 0 payload) := streams_serialSum hpkt
  have hbeyond := fun a => s.em.serialized_pkt_outside (serialSum s).csum (a := a)
  exact ⟨_, ⟨exec_emSer_fits hfits, rfl⟩, hpacket, hpklen, rfl, rfl, serialSum_z s, hstream, rfl, rfl, rfl, fun _ => rfl, hbeyond,
    rfl, rfl, rfl, ⟨rfl, rfl⟩⟩

/-- R66: the length and the response of EM.SER, in terms of the payload. -/
theorem exec_emSer_pklen_rsp {s t : State} (hpkt : s.em.pkt.wf = true) (h : exec .emSer s = .next t) :
    t.em.pklen = BitVec.ofNat 16 (8 + s.em.plen.toNat) ∧
      t.host.rsp = some { code := 0, val := (checksum (packetOf 0 s.em.payload)).setWidth 32 } := by
  obtain ⟨-, hrest⟩ := guardCapacity_next.mp (exec_emSer s ▸ h)
  obtain ⟨-, hanswer⟩ := guardCapacity_next.mp hrest
  rw [respond_next.mp hanswer, ← serialSum_csum hpkt]
  exact ⟨rfl, rfl⟩

/-- Settles O43: packet, `PKLEN` and response are terms in the payload and its length. -/
theorem identifierNeverReachesTheWire : Obligations.IdentifierNeverReachesTheWire := by
  intro s s' t t' hpkt hpkt' hplen hbytes h h'
  have hpayload : s.em.payload = s'.em.payload := by
    rw [EmUnit.payload, EmUnit.payload, ← hplen]
    exact Memory.slice_congr hbytes
  obtain ⟨-, hpacket⟩ := exec_emSer_packet hpkt h
  obtain ⟨-, hpacket'⟩ := exec_emSer_packet hpkt' h'
  obtain ⟨hpklen, hrsp⟩ := exec_emSer_pklen_rsp hpkt h
  obtain ⟨hpklen', hrsp'⟩ := exec_emSer_pklen_rsp hpkt' h'
  rw [hpacket, hpacket', hpklen, hpklen', hrsp, hrsp', hpayload, hplen]
  exact ⟨rfl, rfl, rfl⟩

end Sys2Proof.Machine
end

section
/-! PROOFS. Family 42_subnet_range: the address loads (O46), what NR.DERIVE computes (O47, O48, O49, O50), NR.NEXT (O51), and the sweep of a
derived range (O52). -/

namespace Sys2Proof.Machine

/-- A response and another range unit are inside the frame. -/
theorem onlyNr_withNr (s : State) (n : NrUnit) (r : Option Response) : OnlyNr s ({ s with nr := n }.withRsp r) :=
  ⟨rfl, rfl, rfl, rfl, ⟨rfl, rfl⟩, fun _ _ => rfl⟩

/-! ### Loading the address (R72, R73) -/

theorem addrByte_withAddrHigh_loaded (x : Word) (v : Half) :
    addrByte (withAddrHigh x v) 0 = hiByte v ∧ addrByte (withAddrHigh x v) 1 = loByte v := by
  have hv := v.isLt
  constructor <;> apply BitVec.eq_of_toNat_eq <;> simp only [addrByte_toNat, withAddrHigh_toNat, hiByte_toNat, loByte_toNat] <;> omega

theorem addrByte_withAddrHigh_kept (x : Word) (v : Half) :
    addrByte (withAddrHigh x v) 2 = addrByte x 2 ∧ addrByte (withAddrHigh x v) 3 = addrByte x 3 := by
  constructor <;> apply BitVec.eq_of_toNat_eq <;> simp only [addrByte_toNat, withAddrHigh_toNat] <;> omega

theorem addrByte_withAddrLow_loaded (x : Word) (v : Half) :
    addrByte (withAddrLow x v) 2 = hiByte v ∧ addrByte (withAddrLow x v) 3 = loByte v := by
  have hv := v.isLt
  constructor <;> apply BitVec.eq_of_toNat_eq <;> simp only [addrByte_toNat, withAddrLow_toNat, hiByte_toNat, loByte_toNat] <;> omega

theorem addrByte_withAddrLow_kept (x : Word) (v : Half) :
    addrByte (withAddrLow x v) 0 = addrByte x 0 ∧ addrByte (withAddrLow x v) 1 = addrByte x 1 := by
  have hv := v.isLt
  constructor <;> apply BitVec.eq_of_toNat_eq <;> simp only [addrByte_toNat, withAddrLow_toNat] <;> omega

/-- Settles O46, by the four bytes of each half loaded. -/
theorem addressLoadsInTwoHalves : Obligations.AddressLoadsInTwoHalves := by
  intro v s
  obtain ⟨h0, h1⟩ := addrByte_withAddrHigh_loaded s.nr.addr v
  obtain ⟨h2, h3⟩ := addrByte_withAddrHigh_kept s.nr.addr v
  obtain ⟨l2, l3⟩ := addrByte_withAddrLow_loaded s.nr.addr v
  obtain ⟨l0, l1⟩ := addrByte_withAddrLow_kept s.nr.addr v
  exact ⟨⟨_, ⟨rfl, rfl⟩, onlyNr_withNr s _ _, rfl, h0, h1, h2, h3⟩, ⟨_, ⟨rfl, rfl⟩, onlyNr_withNr s _ _, rfl, l2, l3, l0, l1⟩⟩

/-! ### NR.DERIVE by its operand (R74) -/

section
variable {p : Byte} (s : State)

theorem exec_nrDerive_high (hp : 32 < p.toNat) : exec (.nrDerive p) s = raise .invalidPrefix (dropRange s) := if_pos hp

theorem exec_nrDerive_low (hp : p.toNat < 24) : exec (.nrDerive p) s = raise .subnetTooLarge (dropRange s) := by
  have hnot : ¬ 32 < p.toNat := by omega
  exact (if_neg hnot).trans (if_pos hp)

theorem exec_nrDerive_valid (hlow : 24 ≤ p.toNat) (hhigh : p.toNat ≤ 32) :
    exec (.nrDerive p) s = complete { s with nr := s.nr.derived p } :=
  (if_neg (Nat.not_lt.mpr hhigh)).trans (if_neg (Nat.not_lt.mpr hlow))

end

/-- R74: the range unit after NR.DERIVE of a valid operand. -/
theorem nr_of_exec_nrDerive {p : Byte} {s t : State} (h : exec (.nrDerive p) s = .next t) (hlow : 24 ≤ p.toNat) (hhigh : p.toNat ≤ 32) :
    t.nr = s.nr.derived p := by
  rw [exec_nrDerive_valid s hlow hhigh, complete_next] at h
  rw [h, State.withRsp_nr]

/-- Settles O47: the three intervals of the operand. -/
theorem deriveValidatesThenDerives : Obligations.DeriveValidatesThenDerives := by
  refine fun p s => ⟨fun hp => ?_, fun hp => ?_, fun hlow hhigh => ?_⟩
  · exact ⟨_, ⟨exec_nrDerive_high s hp, rfl⟩, rfl, rfl, rfl, rfl, rfl, ⟨rfl, rfl⟩, fun _ _ => rfl⟩
  · exact ⟨_, ⟨exec_nrDerive_low s hp, rfl⟩, rfl, rfl, rfl, rfl, rfl, ⟨rfl, rfl⟩, fun _ _ => rfl⟩
  · exact ⟨_, ⟨exec_nrDerive_valid s hlow hhigh, rfl⟩, onlyNr_withNr s _ _, s.nr.derived_range hlow hhigh, rfl,
      reservedBytes_toNat hhigh, reservedBits_toNat p, s.nr.derived_cur p, rfl, s.nr.derived_done p, s.nr.derived_addr p⟩

/-! ### The two forms of a range (R70, R71) -/

/-- R70: below 32 the range goes from octet 1 to the end octet of `p`. -/
theorem deriveRange_of_le_31 (a : Word) {p : Nat} (hlow : 24 ≤ p) (hhigh : p ≤ 31) :
    deriveRange a p = .range (withOctet a 1) (withOctet a (BitVec.ofNat 8 (lastOctet p))) := by
  have h32 : ¬ p > 32 := by omega
  have hbytes : p / 8 ≠ 4 := by omega
  rw [deriveRange, if_neg h32, if_neg (Nat.not_lt.mpr hlow), if_neg hbytes]

/-- R70: at 32 the range is the address alone. -/
theorem deriveRange_32 (a : Word) : deriveRange a 32 = .range a a := rfl

theorem NrUnit.derived_of_le_31 (n : NrUnit) {p : Byte} (hlow : 24 ≤ p.toNat) (hhigh : p.toNat ≤ 31) :
    (n.derived p).startA = withOctet n.addr 1 ∧ (n.derived p).endA = withOctet n.addr (BitVec.ofNat 8 (lastOctet p.toNat)) := by
  have h := n.derived_range hlow (hhigh.trans (by decide))
  rw [deriveRange_of_le_31 n.addr hlow hhigh] at h
  injection h with hstart hend
  exact ⟨hstart.symm, hend.symm⟩

theorem NrUnit.derived_32 (n : NrUnit) : (n.derived 32).startA = n.addr ∧ (n.derived 32).endA = n.addr := ⟨rfl, rfl⟩

/-- R81: the end octet fits a byte, and lies below octet 1 for 31 alone. -/
theorem lastOctet_facts : ∀ p, p ≤ 31 → 24 ≤ p → lastOctet p ≤ 254 ∧ (1 ≤ lastOctet p ↔ p ≠ 31) := by decide

theorem ofNat_lastOctet_toNat {p : Nat} (hlow : 24 ≤ p) (hhigh : p ≤ 31) : (BitVec.ofNat 8 (lastOctet p)).toNat = lastOctet p := by
  obtain ⟨hle, -⟩ := lastOctet_facts p hhigh hlow
  rw [BitVec.toNat_ofNat]
  omega

/-- R78: the number of addresses of a range. -/
theorem length_addressSeq (first last : Word) :
    (addressSeq first last).length = (hostOctet last).toNat + 1 - (hostOctet first).toNat := by
  simp [addressSeq]

/-- Settles O48: a row's end octet is `lastOctet` of its first column, and the count is the end octet since the range starts at 1. -/
theorem endOctetsAndCounts : Obligations.EndOctetsAndCounts := by
  refine fun a => ⟨fun row hrow => ?_, deriveRange_32 a, ?_⟩
  · have htable : row.1 / 8 = 3 ∧ row.1 % 8 = row.2.1 ∧ lastOctet row.1 = row.2.2.1 ∧ row.2.2.2 = row.2.2.1 := by
      revert row
      decide
    obtain ⟨hbytes, hbits, hlast, hcount⟩ := htable
    have hlow : 24 ≤ row.1 := by omega
    have hhigh : row.1 ≤ 31 := by omega
    refine ⟨hbytes, hbits, _, _, deriveRange_of_le_31 a hlow hhigh, fun k hk => ⟨addrByte_withOctet a _ hk, addrByte_withOctet a _ hk⟩,
      hostOctet_withOctet a _, ?_, ?_⟩
    · rw [← hlast]
      exact hostOctet_withOctet a _
    · rw [length_addressSeq, hostOctet_withOctet, hostOctet_withOctet, ofNat_lastOctet_toNat hlow hhigh, hlast, hcount]
      exact Nat.add_sub_cancel ..
  · rw [length_addressSeq]
    exact Nat.add_sub_cancel_left ..

/-- R70: the two forms of a range are told apart by the operand. -/
theorem le_31_or_eq_32 {p : Byte} (hhigh : p.toNat ≤ 32) : p.toNat ≤ 31 ∨ p = 32 := by
  obtain hlt | heq := Nat.lt_or_eq_of_le hhigh
  · exact .inl (Nat.le_of_lt_succ hlt)
  · exact .inr (BitVec.eq_of_toNat_eq heq)

/-- R75: the octets of a derived range are in order, but for 31. -/
theorem NrUnit.derived_ordered (n : NrUnit) {p : Byte} (hlow : 24 ≤ p.toNat) (hhigh : p.toNat ≤ 32) :
    (hostOctet (n.derived p).startA).toNat ≤ (hostOctet (n.derived p).endA).toNat ↔ p.toNat ≠ 31 := by
  obtain hpartial | rfl := le_31_or_eq_32 hhigh
  · obtain ⟨hstart, hend⟩ := n.derived_of_le_31 hlow hpartial
    rw [hstart, hend, hostOctet_withOctet, hostOctet_withOctet, ofNat_lastOctet_toNat hlow hpartial]
    exact (lastOctet_facts p.toNat hpartial hlow).2
  · exact ⟨fun _ => by decide, fun _ => Nat.le_refl _⟩

/-- R75: the network bytes of a derived range are those of the address. -/
theorem NrUnit.derived_network (n : NrUnit) {p : Byte} (hlow : 24 ≤ p.toNat) (hhigh : p.toNat ≤ 32) {k : Nat} (hk : k < 3) :
    addrByte (n.derived p).startA k = addrByte n.addr k ∧ addrByte (n.derived p).endA k = addrByte n.addr k := by
  obtain hpartial | rfl := le_31_or_eq_32 hhigh
  · obtain ⟨hstart, hend⟩ := n.derived_of_le_31 hlow hpartial
    rw [hstart, hend]
    exact ⟨addrByte_withOctet _ _ hk, addrByte_withOctet _ _ hk⟩
  · exact ⟨rfl, rfl⟩

/-- Settles O49: the range unit after the command is the derived one. -/
theorem rangeIsOrderedExceptAt31 : Obligations.RangeIsOrderedExceptAt31 := by
  intro p s t h hlow hhigh
  rw [nr_of_exec_nrDerive h hlow hhigh]
  exact ⟨s.nr.derived_ordered hlow hhigh, fun k => s.nr.derived_network hlow hhigh⟩

/-! ### The address's own host octet (R76) -/

/-- R25, R74: an address put together reads the first three bytes alone. -/
theorem withOctet_congr {x y : Word} (h : ∀ k, k < 3 → addrByte x k = addrByte y k) (o : Byte) : withOctet x o = withOctet y o := by
  have hnet (k : Nat) (hk : k < 3) : addrByte (withOctet x o) k = addrByte (withOctet y o) k := by
    rw [addrByte_withOctet x o hk, addrByte_withOctet y o hk, h k hk]
  have hhost : hostOctet (withOctet x o) = hostOctet (withOctet y o) := by rw [hostOctet_withOctet, hostOctet_withOctet]
  exact word_eq_iff_bytes.mpr ⟨hnet 0 (by decide), hnet 1 (by decide), hnet 2 (by decide), hhost⟩

/-- R17, R74: `DONE` after a derivation reads the two host octets alone. -/
theorem NrUnit.derived_done_eq (n : NrUnit) (p : Byte) :
    (n.derived p).done = decide (hostOctet (n.derived p).startA > hostOctet (n.derived p).endA) := rfl

/-- Settles O50: below 32 the host octets are 1 and `lastOctet`, and `CUR` and `DONE` are functions of the host octets. -/
theorem ownHostOctetIsNotRead : Obligations.OwnHostOctetIsNotRead := by
  refine ⟨fun p s s' t t' hlow hhigh h h' => ?_, by decide⟩
  have hvalid : p.toNat ≤ 32 := hhigh.trans (by decide)
  rw [nr_of_exec_nrDerive h hlow hvalid, nr_of_exec_nrDerive h' hlow hvalid]
  obtain ⟨hstart, hend⟩ := s.nr.derived_of_le_31 hlow hhigh
  obtain ⟨hstart', hend'⟩ := s'.nr.derived_of_le_31 hlow hhigh
  simp only [← hostOctet_eq, NrUnit.derived_cur, NrUnit.derived_done_eq, hstart, hend, hstart', hend', hostOctet_withOctet, true_and]
  exact fun hnet => ⟨withOctet_congr hnet _, withOctet_congr hnet _⟩

/-! ### NR.NEXT (R79) -/

section
variable {s : State}

theorem exec_nrNext_noRange (hinvalid : s.nr.rvalid = false) : exec .nrNext s = raise .noRange s := if_pos hinvalid

variable (hvalid : s.nr.rvalid = true)
include hvalid

theorem exec_nrNext_done (hdone : s.nr.done = true) : exec .nrNext s = raise .rangeDone s := by
  rw [exec_nrNext, hvalid, if_neg Bool.true_eq_false_eq_False, if_pos hdone]

theorem exec_nrNext_open (hopen : s.nr.done = false) :
    exec .nrNext s = respond (withOctet s.nr.startA s.nr.cur) { s with nr := s.nr.stepped } := by
  rw [exec_nrNext, hvalid, hopen]
  rfl

end

/-- R79: below another byte an increment does not wrap. -/
theorem toNat_succ_of_lt {x y : Byte} (h : x.toNat < y.toNat) : (x + 1).toNat = x.toNat + 1 := by
  bv_omega

/-- R79: a good iterator that is not done and not at the last octet stands below it. -/
theorem NrUnit.Good.cur_lt {n : NrUnit} (h : n.Good) (hopen : n.done = false) (hne : n.cur ≠ hostOctet n.endA) :
    n.cur.toNat < (hostOctet n.endA).toNat :=
  Nat.lt_of_le_of_ne (h.cur_inside hopen).2 fun heq => hne (BitVec.eq_of_toNat_eq heq)

/-- Settles O51, by the three answers of the command and the two moves of the iterator. -/
theorem nextGivesTheNextAddress : Obligations.NextGivesTheNextAddress := by
  refine fun s => ⟨fun hinvalid => ?_, fun hvalid hdone => ?_, fun hvalid hopen => ?_⟩
  · exact ⟨_, ⟨exec_nrNext_noRange hinvalid, rfl⟩, rfl, onlyErr_withErr s _ _⟩
  · exact ⟨_, ⟨exec_nrNext_done hvalid hdone, rfl⟩, rfl, onlyErr_withErr s _ _⟩
  · refine ⟨_, _, ⟨exec_nrNext_open hvalid hopen, rfl⟩, onlyNr_withNr s _ _, withOctet_toNat _ _, NrUnit.stepped_last, fun hne => ?_⟩
    rw [State.withRsp_nr, NrUnit.stepped_before_last hne]
    exact ⟨rfl, fun hgood => toNat_succ_of_lt (hgood.cur_lt hopen hne)⟩

/-! ### The sweep of a range (R80) -/

section
variable {s : State} (hvalid : s.nr.rvalid = true)
include hvalid

/-- R80: a sweep of an iterator that is done ends at once with `RangeDone`. -/
theorem sweep_done (hdone : s.nr.done = true) (fuel : Nat) :
    (sweep (fuel + 1) s).1 = [] ∧ (sweep (fuel + 1) s).2.host.rsp = some { code := 7, val := 0 } := by
  rw [sweep, exec_nrNext_done hvalid hdone]
  exact ⟨rfl, rfl⟩

/-- R79: a sweep of an iterator that is not done gives the address it stands at, then sweeps on. -/
theorem sweep_open (hopen : s.nr.done = false) (fuel : Nat) :
    ∃ t, t.nr = s.nr.stepped ∧ sweep (fuel + 1) s = (withOctet s.nr.startA s.nr.cur :: (sweep fuel t).1, (sweep fuel t).2) := by
  refine ⟨{ s with nr := s.nr.stepped }.withRsp (some ⟨0, withOctet s.nr.startA s.nr.cur⟩), rfl, ?_⟩
  rw [sweep, exec_nrNext_open hvalid hopen]
  rfl

end

/-- R78: the addresses of `n` host octets from `first` on, in the network of `start`. -/
def addressesFrom (start : Word) (first n : Nat) : List Word :=
  (List.range' first n).map fun o => withOctet start (BitVec.ofNat 8 o)

theorem addressSeq_eq (first last : Word) :
    addressSeq first last = addressesFrom first (hostOctet first).toNat ((hostOctet last).toNat + 1 - (hostOctet first).toNat) := rfl

theorem addressesFrom_succ (start : Word) (o : Byte) (n : Nat) :
    addressesFrom start o.toNat (n + 1) = withOctet start o :: addressesFrom start (o.toNat + 1) n := by
  simp [addressesFrom, List.range'_succ]

/-- R80: an iterator that is not done and `n` octets before the last gives the `n + 1` addresses from `CUR` on, and then `RangeDone`. -/
theorem sweep_from {s : State} (hvalid : s.nr.rvalid = true) (hopen : s.nr.done = false) {n : Nat}
    (hlast : s.nr.cur.toNat + n = (hostOctet s.nr.endA).toNat) {fuel : Nat} (hfuel : n + 2 ≤ fuel) :
    (sweep fuel s).1 = addressesFrom s.nr.startA s.nr.cur.toNat (n + 1) ∧
      (sweep fuel s).2.host.rsp = some { code := 7, val := 0 } := by
  induction n generalizing s fuel with
  | zero =>
    obtain ⟨fuel, rfl⟩ := Nat.exists_eq_add_of_le' hfuel
    obtain ⟨t, ht, hsweep⟩ := sweep_open hvalid hopen (fuel + 1)
    rw [NrUnit.stepped_last (BitVec.eq_of_toNat_eq hlast)] at ht
    obtain ⟨hnil, hrsp⟩ := sweep_done (s := t) (by rw [ht]; exact hvalid) (by rw [ht]) fuel
    rw [hsweep, addressesFrom_succ, hnil]
    exact ⟨rfl, hrsp⟩
  | succ n ih =>
    obtain ⟨fuel, rfl⟩ := Nat.exists_eq_add_of_le' hfuel
    obtain ⟨t, ht, hsweep⟩ := sweep_open hvalid hopen (fuel + n + 2)
    have hlt : s.nr.cur.toNat < (hostOctet s.nr.endA).toNat := by omega
    have hne : s.nr.cur ≠ hostOctet s.nr.endA := fun heq => by simp [heq] at hlt
    have hsucc := toNat_succ_of_lt hlt
    have hlast' : (s.nr.cur + 1).toNat + n = (hostOctet s.nr.endA).toNat := by omega
    rw [NrUnit.stepped_before_last hne] at ht
    obtain ⟨hrest, hrsp⟩ := ih (s := t) (by rw [ht]; exact hvalid) (by rw [ht]; exact hopen) (by rw [ht]; exact hlast')
      (fuel := fuel + n + 2) (by omega)
    rw [ht, hsucc] at hrest
    rw [addressesFrom_succ, ← hrest]
    exact hsweep ▸ ⟨rfl, hrsp⟩

/-- R80: with the iterator placed as NR.DERIVE places it, a sweep with fuel for one command more than the range has addresses gives the
whole sequence. -/
theorem sweep_range {s : State} (hvalid : s.nr.rvalid = true) (hcur : s.nr.cur = hostOctet s.nr.startA)
    (hdone : s.nr.done = true ↔ (hostOctet s.nr.endA).toNat < (hostOctet s.nr.startA).toNat) {fuel : Nat}
    (hfuel : (hostOctet s.nr.endA).toNat + 1 - (hostOctet s.nr.startA).toNat < fuel) :
    (sweep fuel s).1 = addressSeq s.nr.startA s.nr.endA ∧ (sweep fuel s).2.host.rsp = some { code := 7, val := 0 } := by
  rw [addressSeq_eq, ← hcur]
  rw [← hcur] at hdone hfuel
  obtain hempty | hfull := Nat.lt_or_ge (hostOctet s.nr.endA).toNat s.nr.cur.toNat
  · obtain ⟨fuel, rfl⟩ := Nat.exists_eq_add_of_lt hfuel
    rw [Nat.sub_eq_zero_of_le hempty]
    exact sweep_done hvalid (hdone.mpr hempty) _
  · have hopen : s.nr.done = false := Bool.eq_false_of_not_eq_true fun hd => Nat.not_lt.mpr hfull (hdone.mp hd)
    rw [Nat.sub_add_comm hfull] at hfuel ⊢
    exact sweep_from hvalid hopen (Nat.add_sub_cancel' hfull) hfuel

/-- R71: a derived range has at most 254 addresses. -/
theorem NrUnit.derived_count_le (n : NrUnit) {p : Byte} (hlow : 24 ≤ p.toNat) (hhigh : p.toNat ≤ 32) :
    (hostOctet (n.derived p).endA).toNat + 1 - (hostOctet (n.derived p).startA).toNat ≤ 254 := by
  obtain hpartial | rfl := le_31_or_eq_32 hhigh
  · obtain ⟨hstart, hend⟩ := n.derived_of_le_31 hlow hpartial
    obtain ⟨hle, -⟩ := lastOctet_facts p.toNat hpartial hlow
    rw [hstart, hend, hostOctet_withOctet, hostOctet_withOctet, ofNat_lastOctet_toNat hlow hpartial]
    exact hle
  · obtain ⟨hstart, hend⟩ := n.derived_32
    rw [hstart, hend]
    omega

/-- R30, R80: the commands of the other families, but SYS.RST, leave the range unit alone. -/
theorem exec_keeps_nr {i : Instr} {s t : State} (hadrh : ∀ v, i ≠ .nrAdrh v) (hadrl : ∀ v, i ≠ .nrAdrl v)
    (hderive : ∀ p, i ≠ .nrDerive p) (hnext : i ≠ .nrNext) (hrst : i ≠ .sysRst) (h : exec i s = .next t) : t.nr = s.nr := by
  obtain ⟨-, e, he⟩ | ⟨-, v, hv⟩ := exec_next h
  · rw [raise_next.mp he, State.withRsp_nr]
    cases i with
    | nrDerive p => exact absurd rfl (hderive p)
    | _ => rfl
  · rw [respond_next.mp hv, State.withRsp_nr]
    cases i with
    | nrAdrh v => exact absurd rfl (hadrh v)
    | nrAdrl v => exact absurd rfl (hadrl v)
    | nrDerive p => exact absurd rfl (hderive p)
    | nrNext => exact absurd rfl hnext
    | sysRst => exact absurd rfl hrst
    | _ => rfl

/-- Settles O52: a derivation places the iterator at the start of at most 254 addresses, and no other family moves it. -/
theorem iteratorGivesTheWholeSequence : Obligations.IteratorGivesTheWholeSequence := by
  refine ⟨fun p s t fuel h hlow hhigh hfuel => ?_, fun _ _ _ => exec_keeps_nr⟩
  have hnr := nr_of_exec_nrDerive h hlow hhigh
  have hcount := hnr ▸ s.nr.derived_count_le hlow hhigh
  obtain ⟨hseq, hrsp⟩ := sweep_range (s := t) (fuel := fuel) (hnr ▸ rfl) (hnr ▸ s.nr.derived_cur p) (hnr ▸ s.nr.derived_done p) (by omega)
  exact ⟨hseq, hseq ▸ length_addressSeq _ _, hrsp⟩

end Sys2Proof.Machine
end

section
/-! PROOFS. Family 43_system_access: SYS.NOP and SYS.CLRERR (O21), SYS.RD (O22), SYS.RST (O24), LD.PKT and LD.PAY (O25). -/

namespace Sys2Proof.Machine

/-! ### The two ways a command answers without an effect -/

/-- R10: a response is inside the frame. -/
theorem unchanged_withRsp (s : State) (r : Option Response) : Unchanged s (s.withRsp r) :=
  ⟨rfl, rfl, rfl, rfl, rfl, ⟨rfl, rfl⟩, fun _ _ => rfl⟩

section
variable {i : Instr} {s : State}

theorem answers_unchanged_of_respond {v : Word} (h : exec i s = respond v s) : ∃ t, Answers i s t 0 v ∧ Unchanged s t :=
  ⟨_, ⟨h, rfl⟩, unchanged_withRsp s _⟩

/-- R92: an error raised with nothing written before it. -/
theorem answers_onlyErr_of_raise {e : ErrorCode} (h : exec i s = raise e s) :
    ∃ t, Answers i s t e.code 0 ∧ t.err = e.code ∧ OnlyErr s t :=
  ⟨_, ⟨h, rfl⟩, rfl, onlyErr_withErr s _ _⟩

end

/-- Settles O21: SYS.NOP responds with 0 from the state it finds, SYS.CLRERR after writing `ERR`. -/
theorem nopAndClrerr : Obligations.NopAndClrerr :=
  fun s => ⟨answers_unchanged_of_respond rfl, _, ⟨rfl, rfl⟩, rfl, onlyErr_withErr s 0 _⟩

/-! ### The registers by number (R14, R84) -/

/-- R14: the registers in the order of their numbers. -/
def Reg.all : List Reg :=
  [.status, .err, .acc, .hold, .csum, .emtype, .emcode, .emck, .emid, .emseq, .plen, .pklen, .addr, .pfx, .rbytes, .rbits, .startA,
   .endA, .cur, .cap]

/-- R14: a register's number is its place in the order. -/
theorem regOfIndex_eq_getElem? (r : Byte) : regOfIndex r = Reg.all[r.toNat]? := by
  revert r
  decide

/-- The number 0 or 1 of a flag is the library's. -/
theorem toNat_eq_bitNat (b : Bool) : b.toNat = bitNat b := by cases b <;> rfl

/-- R17, R18: the number that `EF` makes. -/
theorem bitNat_efFlag (err : Byte) : bitNat (efFlag err) = if err = 0 then 0 else 1 := by
  simp [bitNat, efFlag_eq_decide]

/-- R18: `STATUS` is a number with the flags as its binary digits. -/
theorem statusView_toNat (s : State) : (statusView s).toNat = statusNat s := by
  have hzero : (0 : BitVec 27).toNat = 0 := rfl
  simp only [statusView, BitVec.append_ofBool, BitVec.toNat_concat, hzero, toNat_eq_bitNat, statusNat, ← bitNat_efFlag]
  omega

/-- R14: the table pairs the number of each register with the value it is read as. -/
theorem registerValues_eq_map (s : State) :
    registerValues s = Reg.all.zipIdx.map fun x => (x.2, (regValue s x.1).toNat) := by
  have hcap : (BitVec.ofNat 32 s.cfg.payMax.val).toNat = s.cfg.payMax.val :=
    Nat.mod_eq_of_lt (by omega)
  simp (disch := decide) only [Reg.all, List.zipIdx, List.map, regValue, statusView_toNat, BitVec.toNat_setWidth_of_le, hcap]
  rfl

/-- R14, R84: the entries of the table at the number of an operand. -/
theorem mem_registerValues (r : Byte) (v : Nat) (s : State) :
    (r.toNat, v) ∈ registerValues s ↔ ∃ x, regOfIndex r = some x ∧ (regValue s x).toNat = v := by
  rw [registerValues_eq_map, regOfIndex_eq_getElem?]
  simp [List.mem_zipIdx_iff_getElem?]

theorem exec_sysRd_none {r : Byte} (h : regOfIndex r = none) (s : State) : exec (.sysRd r) s = raise .badAddress s := by
  simp only [exec, execSysRd, h]

theorem exec_sysRd_some {r : Byte} {x : Reg} (h : regOfIndex r = some x) (s : State) :
    exec (.sysRd r) s = respond (regValue s x) s := by
  simp only [exec, execSysRd, h]

/-- Settles O22: the numbers above 19 name no register, and the others the register the table lists. -/
theorem sysRdReadsTheNumberedRegister : Obligations.SysRdReadsTheNumberedRegister := by
  refine fun r s => ⟨fun hr => ?_, fun v hv => ?_, fun hr => ?_⟩
  · have hnone : regOfIndex r = none := (regOfIndex_eq_getElem? r).trans (List.getElem?_eq_none hr)
    exact answers_onlyErr_of_raise (exec_sysRd_none hnone s)
  · obtain ⟨x, hx, rfl⟩ := (mem_registerValues r v s).mp hv
    rw [BitVec.ofNat_toNat, BitVec.setWidth_eq]
    exact ⟨(regValue s x).isLt, answers_unchanged_of_respond (exec_sysRd_some hx s)⟩
  · obtain ⟨x, hx⟩ := Option.isSome_iff_exists.mp ((regOfIndex_isSome r).trans (decide_eq_true hr))
    exact ⟨_, (mem_registerValues r _ s).mpr ⟨x, hx, rfl⟩⟩

/-! ### The windowed loads (R32, R87, R88) -/

section
variable {sp : Space} {len a : Half} {s : State}

theorem loadByte_outside (h : len.toNat ≤ a.toNat) : loadByte sp len a s = raise .badAddress s := if_pos h

theorem loadByte_inside (h : a.toNat < len.toNat) (hcap : len.toNat ≤ s.capacity sp) :
    loadByte sp len a s = respond ((s.byteAt sp a.toNat).setWidth 32) s :=
  (if_neg (Nat.not_le.mpr h)).trans (guardCapacity_inside (h.trans_le hcap) _)

end

/-- Settles O25: both loads are the one windowed read. -/
theorem windowedLoads : Obligations.WindowedLoads := by
  refine fun a s => ⟨fun hout => ?_, fun hin hcap => ?_, fun hout => ?_, fun hin hcap => ?_⟩
  · exact answers_onlyErr_of_raise ((exec_ldPkt s a).trans (loadByte_outside hout))
  · exact answers_unchanged_of_respond ((exec_ldPkt s a).trans (loadByte_inside hin hcap))
  · exact answers_onlyErr_of_raise ((exec_ldPay s a).trans (loadByte_outside hout))
  · exact answers_unchanged_of_respond ((exec_ldPay s a).trans (loadByte_inside hin hcap))

/-! ### Reset by command (R86) -/

/-- R28: no register or flag tells the CORE after a reset from one of the same configuration right after reset. -/
theorem Piece.same_resetCore (x : Piece) (s : State) : x.same (State.resetWith s.cfg) (resetCore s) := by
  rw [resetCore_eq]
  cases x <;> rfl

/-- R32: through an empty window nothing can be loaded. -/
theorem loadByte_empty (sp : Space) (a : Half) (s : State) : loadByte sp 0 a s = raise .badAddress s :=
  loadByte_outside (Nat.zero_le _)

/-- Settles O24: SYS.RST responds after the reset, whose windows are empty. -/
theorem sysRstResetsEveryRegister : Obligations.SysRstResetsEveryRegister := by
  refine fun s => ⟨_, ⟨rfl, rfl⟩, rfl, ⟨rfl, rfl⟩, fun x => ?_, fun a => ?_, fun a => ?_⟩
  · rw [Piece.same_withRsp]
    exact x.same_resetCore s
  · exact ⟨_, loadByte_empty .pkt a _, rfl⟩
  · exact ⟨_, loadByte_empty .pay a _, rfl⟩

end Sys2Proof.Machine
end

section
/-! PROOFS. Family 60_exceptions: which command raises which error (O18, O19) and what an error changes (O15, O16), and the CORE beside a host
that has given up a scan or had a derivation refused (O54, O55). -/

namespace Sys2Proof.Machine

/-! ### The causes of the errors (R90) -/

/-- R90: the command and the cause of an error code. An illegal word is no command, so nothing a command does causes the code of one. -/
def ErrorCode.Cause (e : ErrorCode) (i : Instr) (s : State) : Prop :=
  match e with
  | .invalidPrefix => ∃ p, i = .nrDerive p ∧ 32 < p.toNat
  | .subnetTooLarge => ∃ p, i = .nrDerive p ∧ p.toNat < 24
  | .illegalCommand => False
  | .payloadFull => ∃ b, i = .emPayb b ∧ s.em.plen.toNat = s.cfg.payMax.val
  | .badAddress => (∃ x, i = .sysRd x ∧ 19 < x.toNat) ∨ (∃ a, i = .ldPkt a ∧ s.em.pklen.toNat ≤ a.toNat) ∨
      ∃ a, i = .ldPay a ∧ s.em.plen.toNat ≤ a.toNat
  | .noRange => i = .nrNext ∧ s.nr.rvalid = false
  | .rangeDone => i = .nrNext ∧ s.nr.rvalid = true ∧ s.nr.done = true

theorem ErrorCode.code_injective {e e' : ErrorCode} (h : e.code = e'.code) : e = e' := by
  cases e <;> cases e' <;> simp_all [code]

/-- R14: the numbers above 19 name no register. -/
theorem regOfIndex_eq_none {r : Byte} : regOfIndex r = none ↔ 19 < r.toNat := by
  rw [← Option.not_isSome_iff_eq_none, regOfIndex_isSome, decide_eq_true_eq, Nat.not_le]

/-- R90: a command raises what it has a cause to raise. -/
theorem exec_of_cause {e : ErrorCode} {i : Instr} {s : State} (h : e.Cause i s) : exec i s = raise e (beforeRaise i s) := by
  cases e with
  | invalidPrefix =>
    obtain ⟨p, rfl, hp⟩ := h
    exact exec_nrDerive_high s hp
  | subnetTooLarge =>
    obtain ⟨p, rfl, hp⟩ := h
    exact exec_nrDerive_low s hp
  | illegalCommand => exact h.elim
  | payloadFull =>
    obtain ⟨b, rfl, hfull⟩ := h
    exact exec_emPayb_full hfull b
  | badAddress =>
    obtain ⟨x, rfl, hx⟩ | ⟨a, rfl, hout⟩ | ⟨a, rfl, hout⟩ := h
    · exact exec_sysRd_none (regOfIndex_eq_none.mpr hx) s
    · exact loadByte_outside hout
    · exact loadByte_outside hout
  | noRange =>
    obtain ⟨rfl, hinvalid⟩ := h
    exact exec_nrNext_noRange hinvalid
  | rangeDone =>
    obtain ⟨rfl, hvalid, hdone⟩ := h
    exact exec_nrNext_done hvalid hdone

/-- R30, R91: a command without a third column in R30 responds with code 0. -/
theorem exec_responds {i : Instr} {s t : State} (hnot : .err ∉ writesOnFailure i) (h : exec i s = .next t) :
    ∃ v, respond v (effectOf i s) = .next t :=
  (exec_next h).elim (fun ⟨hmay, _⟩ => absurd hmay hnot) And.right

/-- R90: a command that answers has a cause to raise, or responds with code 0. -/
theorem exec_caused_or_responds {i : Instr} {s t : State} (h : exec i s = .next t) :
    (∃ e : ErrorCode, e.Cause i s) ∨ ∃ v u, respond v u = .next t := by
  cases i with
  | sysRd r =>
    match hx : regOfIndex r with
    | none => exact .inl ⟨.badAddress, .inl ⟨r, rfl, regOfIndex_eq_none.mp hx⟩⟩
    | some x => exact .inr ⟨_, _, (exec_sysRd_some hx s).symm.trans h⟩
  | ldPkt a =>
    obtain ⟨hout, -⟩ | ⟨-, -, hok⟩ := loadByte_next.mp h
    · exact .inl ⟨.badAddress, .inr (.inl ⟨a, rfl, hout⟩)⟩
    · exact .inr ⟨_, _, hok⟩
  | ldPay a =>
    obtain ⟨hout, -⟩ | ⟨-, -, hok⟩ := loadByte_next.mp h
    · exact .inl ⟨.badAddress, .inr (.inr ⟨a, rfl, hout⟩)⟩
    · exact .inr ⟨_, _, hok⟩
  | emPayb b =>
    by_cases hfull : s.em.plen.toNat = s.cfg.payMax.val
    · exact .inl ⟨.payloadFull, b, rfl, hfull⟩
    · rw [exec_emPayb, if_neg hfull] at h
      exact .inr ⟨_, _, (guardCapacity_next.mp h).2⟩
  | nrDerive p =>
    by_cases hhigh : 32 < p.toNat
    · exact .inl ⟨.invalidPrefix, p, rfl, hhigh⟩
    · by_cases hlow : p.toNat < 24
      · exact .inl ⟨.subnetTooLarge, p, rfl, hlow⟩
      · exact .inr ⟨_, _, (exec_nrDerive_valid s (Nat.le_of_not_lt hlow) (Nat.le_of_not_lt hhigh)).symm.trans h⟩
  | nrNext =>
    match hvalid : s.nr.rvalid, hdone : s.nr.done with
    | false, _ => exact .inl ⟨.noRange, rfl, hvalid⟩
    | true, true => exact .inl ⟨.rangeDone, rfl, hvalid, hdone⟩
    | true, false => exact .inr ⟨_, _, (exec_nrNext_open hvalid hdone).symm.trans h⟩
  | sysNop | sysClrerr | sysRst | ckClr | ckPutb | ckPuth | ckFin | ckPkt | emNew | emSer | nrAdrh | nrAdrl =>
    obtain ⟨v, hv⟩ := exec_responds List.not_mem_nil h
    exact .inr ⟨v, _, hv⟩

section
variable {i : Instr} {s t : State} {r : Response} (h : exec i s = .next t) (hr : t.host.rsp = some r)
include h hr

/-- R90: a code other than 0 is the code of an error the command had a cause to raise. -/
theorem exec_cause_of_code_ne_zero (hne : r.code ≠ 0) : ∃ e : ErrorCode, e.Cause i s ∧ r = { code := e.code, val := 0 } := by
  obtain ⟨e, he⟩ | ⟨v, u, hv⟩ := exec_caused_or_responds h
  · rw [exec_of_cause he, raise_next] at h
    subst h
    exact ⟨e, he, (Option.some.inj hr).symm⟩
  · rw [respond_next] at hv
    subst hv
    exact absurd (congrArg Response.code (Option.some.inj hr)).symm hne

/-- R90: the code of an answer is that of an error exactly when the command had the cause of that error. -/
theorem exec_code_eq_iff (e : ErrorCode) : r.code = e.code ↔ e.Cause i s := by
  constructor
  · intro hcode
    obtain ⟨e', he', rfl⟩ := exec_cause_of_code_ne_zero h hr (hcode ▸ e.code_ne_zero)
    exact ErrorCode.code_injective hcode ▸ he'
  · intro he
    rw [exec_of_cause he, raise_next] at h
    subst h
    exact (congrArg Response.code (Option.some.inj hr)).symm

/-- R92: the state a failing command leaves. -/
theorem exec_state_of_code_ne_zero (hne : r.code ≠ 0) :
    r.val = 0 ∧ t = { beforeRaise i s with err := r.code }.withRsp (some r) := by
  obtain ⟨e, he, rfl⟩ := exec_cause_of_code_ne_zero h hr hne
  exact ⟨rfl, raise_next.mp ((exec_of_cause he).symm.trans h)⟩

end

/-- Settles O15: before it raises, only NR.DERIVE has written anything. -/
theorem raiseChangesNothingElse : Obligations.RaiseChangesNothingElse := by
  intro i s t r h hr hne
  obtain ⟨hval, ht⟩ := exec_state_of_code_ne_zero h hr hne
  refine ⟨hval, ht ▸ rfl, ?_⟩
  cases i with
  | nrDerive p => exact .inl ⟨p, rfl, ht⟩
  | _ => exact .inr ⟨nofun, ht⟩

/-- R97: a refused derivation is refused with the same error from every state. -/
theorem exec_nrDerive_refused {p : Byte} (hp : 32 < p.toNat ∨ p.toNat < 24) :
    ∃ e, ∀ s, exec (.nrDerive p) s = raise e (dropRange s) :=
  hp.elim (fun hhigh => ⟨_, fun s => exec_nrDerive_high s hhigh⟩) fun hlow => ⟨_, fun s => exec_nrDerive_low s hlow⟩

/-- R74: an error of NR.DERIVE leaves no valid range. -/
theorem exec_refused_rvalid {i : Instr} {s t : State} {r : Response} (h : exec i s = .next t) (hr : t.host.rsp = some r)
    (hcode : r.code = ErrorCode.invalidPrefix.code ∨ r.code = ErrorCode.subnetTooLarge.code) : t.nr.rvalid = false := by
  obtain ⟨p, rfl, hp⟩ : ∃ p, i = .nrDerive p ∧ (32 < p.toNat ∨ p.toNat < 24) := by
    simpa only [exec_code_eq_iff h hr, ErrorCode.Cause, ← exists_or, ← and_or_left] using hcode
  obtain ⟨e, he⟩ := exec_nrDerive_refused hp
  rw [raise_next.mp ((he s).symm.trans h)]
  rfl

/-- Settles O18: the codes 1 to 7 by their causes, code 3 by the decoder alone. -/
theorem errorCodesHaveTheirCauses : Obligations.ErrorCodesHaveTheirCauses := by
  refine ⟨fun i s t r h hr => ?_, fun s t w hn h => ?_⟩
  · have hcode := exec_code_eq_iff h hr
    obtain ⟨_, hr', hle, -⟩ := exec_legal h
    obtain rfl := Option.some.inj (hr.symm.trans hr')
    exact ⟨hcode .invalidPrefix, hcode .subnetTooLarge, (hcode .illegalCommand).mp, hcode .payloadFull, hcode .badAddress,
      hcode .noRange, hcode .rangeDone, hle, fun hne => (exec_state_of_code_ne_zero h hr hne).2 ▸ rfl, exec_refused_rvalid h hr⟩
  · match hd : decode w with
    | .command i =>
      rw [step_of_command hn hd] at h
      exact ⟨⟨fun ⟨r, hr, h3⟩ => ((exec_code_eq_iff h hr .illegalCommand).mp h3).elim, nofun⟩, nofun⟩
    | .illegal why =>
      rw [step_of_illegal hn hd] at h
      obtain rfl := raise_next.mp h
      exact ⟨⟨fun _ => ⟨why, rfl⟩, fun _ => ⟨_, rfl, rfl⟩⟩, fun _ _ => rfl⟩

/-- Settles O19: under the invariant every command answers, and the twelve have no third column in R30. -/
theorem twelveCommandsCannotFail : Obligations.TwelveCommandsCannotFail := by
  intro s hinv i hi
  have hnot : .err ∉ writesOnFailure i := by
    obtain rfl | rfl | rfl | rfl | ⟨_, rfl⟩ | ⟨_, rfl⟩ | rfl | rfl | ⟨_, rfl⟩ | rfl | ⟨_, rfl⟩ | ⟨_, rfl⟩ := hi <;>
      exact List.not_mem_nil
  obtain ⟨t, ht⟩ := exec_answers hinv.windowsFit i
  obtain ⟨v, hv⟩ := exec_responds hnot ht
  exact ⟨t, v, ht, respond_next.mp hv ▸ rfl⟩

/-! ### The error record (R96) -/

/-- R96: SYS.CLRERR and SYS.RST leave `ERR` 0. -/
theorem effectOf_err_clears {i : Instr} (hi : i = .sysClrerr ∨ i = .sysRst) (s : State) : (effectOf i s).err = 0 := by
  obtain rfl | rfl := hi <;> rfl

/-- R30, R96: the other commands do not write `ERR` on success. -/
theorem effectOf_err {i : Instr} (hclr : i ≠ .sysClrerr) (hrst : i ≠ .sysRst) (s : State) : (effectOf i s).err = s.err := by
  cases i with
  | sysClrerr => exact absurd rfl hclr
  | sysRst => exact absurd rfl hrst
  | _ => rfl

/-- Settles O16: a word that fails writes its code to `ERR`, and one that succeeds writes it only as SYS.CLRERR or SYS.RST. -/
theorem errorRecordIsSticky : Obligations.ErrorRecordIsSticky := by
  refine ⟨fun s t w hn h => ?_, fun s t hn h => ?_, fun s t hn h => ?_⟩
  · match hd : decode w with
    | .illegal why =>
      obtain rfl := raise_next.mp ((step_of_illegal hn hd).symm.trans h)
      exact ⟨_, rfl, fun _ => rfl, fun h0 => absurd h0 (ErrorCode.code_ne_zero .illegalCommand), by simp⟩
    | .command i =>
      simp only [Decoded.command.injEq, ne_eq]
      obtain ⟨hmay, e, he⟩ | ⟨-, v, hv⟩ := exec_next ((step_of_command hn hd).symm.trans h)
      · obtain rfl := raise_next.mp he
        refine ⟨_, rfl, fun _ => rfl, fun h0 => absurd h0 e.code_ne_zero, ?_⟩
        rintro (rfl | rfl) <;> exact absurd hmay List.not_mem_nil
      · obtain rfl := respond_next.mp hv
        exact ⟨_, rfl, fun hne => absurd rfl hne, fun _ hclr hrst => effectOf_err hclr hrst _, fun hi => effectOf_err_clears hi _⟩
  · cases (step_of_resetInput hn).symm.trans h
    rfl
  · cases (step_of_noInput hn).symm.trans h
    rfl

/-! ### The host on an error (R100) -/

/-- R74, R30: only a derivation makes a range valid. -/
theorem effectOf_rvalid_false {i : Instr} {s : State} (hinvalid : s.nr.rvalid = false) (hi : derivedPrefix? i = none) :
    (effectOf i s).nr.rvalid = false := by
  cases i with
  | nrDerive p => simp [derivedPrefix?] at hi
  | sysRst => rfl
  | nrNext => exact (effectOf_same (x := .rvalid) (i := .nrNext) (by simp [writesOnSuccess]) s).trans hinvalid
  | _ => exact hinvalid

theorem beforeRaise_rvalid_false {s : State} (hinvalid : s.nr.rvalid = false) (i : Instr) : (beforeRaise i s).nr.rvalid = false := by
  cases i with
  | nrDerive p => rfl
  | _ => exact hinvalid

/-- Settles O55: a refused derivation reads nothing of the state, and nothing but a derivation sets `RVALID`. -/
theorem refusedDerivationsDoNotStopTheCore : Obligations.RefusedDerivationsDoNotStopTheCore := by
  refine ⟨fun p s t h hp => ?_, fun s hinvalid => ⟨_, exec_nrNext_noRange hinvalid, rfl⟩, fun i s t hinvalid hi h => ?_⟩
  · obtain ⟨e, he⟩ := exec_nrDerive_refused hp
    rw [he, raise_next] at h
    subst h
    exact ⟨he _, rfl, rfl⟩
  · obtain ⟨-, e, he⟩ | ⟨-, v, hv⟩ := exec_next h
    · rw [raise_next.mp he]
      exact beforeRaise_rvalid_false hinvalid i
    · rw [respond_next.mp hv]
      exact effectOf_rvalid_false hinvalid hi

/-- R71, R79: the range and its iterator are the same in both states; the loaded address may differ. -/
def SameRange (s t : State) : Prop := t.nr = { s.nr with addr := t.nr.addr }

theorem SameRange.of_nr_eq {s t : State} (h : t.nr = s.nr) : SameRange s t := by rw [SameRange, h]

theorem SameRange.trans {s t u : State} (hst : SameRange s t) (htu : SameRange t u) : SameRange s u := by
  unfold SameRange at *
  rw [htu, hst]

theorem SameRange.cur_eq {s t : State} (h : SameRange s t) : t.nr.cur = s.nr.cur := by
  rw [h]

/-- R30: the range unit but for `ADDR` is written by NR.DERIVE, NR.NEXT and SYS.RST alone. -/
theorem exec_keeps_range {i : Instr} {s t : State} (hderive : derivedPrefix? i = none) (hnext : i ≠ .nrNext) (hrst : i ≠ .sysRst)
    (h : exec i s = .next t) : SameRange s t := by
  cases i with
  | nrDerive p => simp [derivedPrefix?] at hderive
  | nrAdrh v =>
    rw [complete_next.mp h]
    rfl
  | nrAdrl v =>
    rw [complete_next.mp h]
    rfl
  | _ => refine .of_nr_eq (exec_keeps_nr ?_ ?_ ?_ hnext hrst h) <;> exact nofun

/-- R74, R101: an event that places no iterator is no reset and no derivation. -/
theorem HostEvent.placesIterator_eq_false {e : HostEvent} : e.placesIterator = false ↔
    e.input? ≠ some .resetInput ∧ e.instr? ≠ some .sysRst ∧ e.instr?.bind derivedPrefix? = none := by
  simp [placesIterator, and_assoc]

/-- R100: with its scan given up, a host that keeps the rule presents nothing that touches the range, unless it derives or resets. -/
theorem deliver_keeps_range {v : HostView} {e : HostEvent} {s t : State} (hgiven : v.scanGivenUp = true) (hallows : v.allows e s = true)
    (hplaces : e.placesIterator = false) (h : deliver e s = .next t) : SameRange s t := by
  obtain ⟨hinput, hrst, hderive⟩ := HostEvent.placesIterator_eq_false.mp hplaces
  match e with
  | .transportFailure =>
    cases h
    rfl
  | .presents .resetInput => exact absurd rfl hinput
  | .presents (.command w) =>
    rw [deliver_command] at h
    match hd : decode w with
    | .illegal why =>
      rw [hd] at h
      cases h
      rfl
    | .command i =>
      rw [hd] at h
      have hi : (HostEvent.presents (.command w)).instr? = some i := decode?_eq_some.mpr hd
      have hnext := (HostView.allows_instr hallows hi).1 hgiven
      rw [hi] at hrst hderive
      exact exec_keeps_range (s := (s.placeInput _).advance) hderive hnext (fun hsys => hrst (congrArg some hsys)) h

/-- R100: only a derivation ends the state of a scan given up (log entry 13). -/
theorem HostView.after_keeps_scanGivenUp {v : HostView} {e : HostEvent} (hgiven : v.scanGivenUp = true)
    (hplaces : e.placesIterator = false) (s t : State) : (v.after e s t).scanGivenUp = true := by
  match e with
  | .transportFailure => rfl
  | .presents x =>
    rw [HostView.after, (HostEvent.placesIterator_eq_false.mp hplaces).2.2]
    exact hgiven

/-- R100: the rule over a run is the rule on its first event, and on the rest from what the event leaves. -/
theorem hostKeepsR100_cons {v : HostView} {e : HostEvent} {es : List HostEvent} {s u : State} (h : deliver e s = .next u) :
    hostKeepsR100 v (e :: es) s = true ↔ v.allows e s = true ∧ hostKeepsR100 (v.after e s u) es u = true := by
  rw [hostKeepsR100, h, Bool.and_eq_true]

/-- R100: through a run after the scan was given up, by induction on the events. -/
theorem deliverAll_keeps_range {es : List HostEvent} {v : HostView} {s t : State} (hgiven : v.scanGivenUp = true)
    (hkeeps : hostKeepsR100 v es s = true) (hplaces : ∀ e ∈ es, e.placesIterator = false) (h : deliverAll es s = .next t) :
    SameRange s t := by
  induction es generalizing v s with
  | nil =>
    cases h
    rfl
  | cons e es ih =>
    obtain ⟨u, hu, hrest⟩ := deliverAll_cons_next.mp h
    obtain ⟨hallows, hkeeps⟩ := (hostKeepsR100_cons hu).mp hkeeps
    obtain ⟨he, hes⟩ := List.forall_mem_cons.mp hplaces
    have hfirst := deliver_keeps_range hgiven hallows he hu
    exact hfirst.trans (ih (HostView.after_keeps_scanGivenUp hgiven he s u) hkeeps hes hrest)

/-- Settles O54: of the failure the CORE sees nothing, the host's scan is given up with it, and the rest of the run keeps the range. -/
theorem coreKeepsCurAfterATransportFailure : Obligations.CoreKeepsCurAfterATransportFailure := by
  intro v es s t hkeeps hplaces h
  obtain ⟨u, hu, hrest⟩ := deliverAll_cons_next.mp h
  obtain ⟨-, hkeeps⟩ := (hostKeepsR100_cons hu).mp hkeeps
  cases hu
  have hrange : SameRange s t := deliverAll_keeps_range (s := s.withRsp none) rfl hkeeps hplaces hrest
  exact ⟨hrange.cur_eq, hrange⟩

end Sys2Proof.Machine
end

section
/-! PROOFS. Family 70_reset_and_hazards: the reset input beside SYS.RST (O8), the step without an input (O9), and the checksum unit as EM.SER
and CK.PKT share it with the host (O38). -/

namespace Sys2Proof.Machine

/-! ### Reset and waiting (R101, R102) -/

/-- Settles O8: both reset the state whose position has moved on, and differ in the response alone. -/
theorem resetInputAndResetCommandAgree : Obligations.ResetInputAndResetCommandAgree :=
  fun _ hn => ⟨_, _, step_of_resetInput hn, rfl, ⟨rfl, rfl⟩, ⟨rfl, rfl⟩, rfl, rfl, rfl, rfl, rfl⟩

/-- Settles O9: the wait empties the response port, which is no part of the CORE. -/
theorem coreWaitsWithoutInput : Obligations.CoreWaitsWithoutInput :=
  fun s hn => ⟨_, step_of_noInput hn, unchanged_withRsp s none, rfl⟩

/-! ### The shared checksum unit (R106) -/

/-- The unit with the result of another finalisation. -/
def CkUnit.withResult (c : CkUnit) (csum : Half) (z : Bool) : CkUnit := { c with csum := csum, z := z }

/-- R54: a push does not read the result of an earlier finalisation. -/
theorem CkUnit.pushByte_withResult (c : CkUnit) (csum : Half) (z : Bool) (b : Byte) :
    (c.withResult csum z).pushByte b = (c.pushByte b).withResult csum z :=
  match hodd : c.odd with
  | false => by rw [pushByte_even hodd, pushByte_even (c := c.withResult csum z) hodd]; rfl
  | true => by rw [pushByte_odd hodd, pushByte_odd (c := c.withResult csum z) hodd]; rfl

theorem CkUnit.pushBytes_withResult (c : CkUnit) (csum : Half) (z : Bool) (bs : List Byte) :
    (c.withResult csum z).pushBytes bs = (c.pushBytes bs).withResult csum z :=
  List.foldl_hom (CkUnit.withResult · csum z) (g₁ := pushByte) (g₂ := pushByte) (pushByte_withResult · csum z)

/-- R53: a clear leaves only the earlier result of what the unit held. -/
theorem CkUnit.clear_eq_withResult (c : CkUnit) : c.clear = CkUnit.reset.withResult c.csum c.z := rfl

/-- R56: a finalisation overwrites the earlier result. -/
theorem CkUnit.finalise_withResult (c : CkUnit) (csum : Half) (z : Bool) : (c.withResult csum z).finalise = c.finalise := rfl

/-- R57, R66: after a buffer is summed, nothing is left of what the unit held. -/
theorem CkUnit.sumBuffer_eq_reset (c : CkUnit) (bs : List Byte) : c.sumBuffer bs = (CkUnit.reset.pushBytes bs).finalise := by
  rw [sumBuffer, clear_eq_withResult, pushBytes_withResult, finalise_withResult]

theorem serialSum_withCk (s : State) (c : CkUnit) : serialSum { s with ck := c } = serialSum s := by
  rw [serialSum, serialSum, CkUnit.sumBuffer_eq_reset, CkUnit.sumBuffer_eq_reset]

theorem exec_emSer_withCk (s : State) (c : CkUnit) : exec .emSer { s with ck := c } = exec .emSer s := by
  rw [exec_emSer, exec_emSer, effectOf, effectOf, serialSum_withCk]
  rfl

theorem exec_ckPkt_withCk (s : State) (c : CkUnit) : exec .ckPkt { s with ck := c } = exec .ckPkt s := by
  rw [exec_ckPkt, exec_ckPkt, effectOf, effectOf, CkUnit.sumBuffer_eq_reset, CkUnit.sumBuffer_eq_reset s.ck]
  rfl

/-- Settles O38: both commands read the unit through the sum of a buffer alone, and the frame of the CK commands is that of O29. -/
theorem checksumUnitIsShared : Obligations.ChecksumUnitIsShared := by
  refine ⟨fun s c => ⟨exec_emSer_withCk s c, exec_ckPkt_withCk s c⟩, fun i s t hi h => ?_⟩
  obtain ⟨-, hem, hnr, -, -, hbytes⟩ := finalisationGivesTheStreamsChecksum.2 i s t hi h
  exact ⟨hem, hnr, hbytes⟩

end Sys2Proof.Machine
end

section
/-! PROOFS. Family other: the truncating checksum beside a receiver that folds carries (O37). A fold keeps the sum modulo 65535 (R60), and the
truncated sum is congruent to the sum only when the part above bit 15 is a multiple of 65535. -/

namespace Sys2Proof.Machine

/-! ### The fold (R60) -/

theorem foldCarries_of_lt {n : Nat} (hlt : n < 65536) (fuel : Nat) : foldCarries fuel n = n :=
  match fuel with
  | 0 => rfl
  | _ + 1 => if_pos hlt

theorem foldCarries_succ_of_le {n : Nat} (hge : 65536 ≤ n) (fuel : Nat) :
    foldCarries (fuel + 1) n = foldCarries fuel (n % 65536 + n / 65536) :=
  if_neg hge.not_gt

/-- R60: a round takes at least one off a sum with carries, so with the sum itself as fuel no carry remains. -/
theorem foldCarries_lt {fuel n : Nat} (hfuel : n ≤ fuel) : foldCarries fuel n < 65536 := by
  induction fuel generalizing n with
  | zero => rw [foldCarries]; omega
  | succ fuel ih =>
    obtain hlt | hge := lt_or_ge n 65536
    · rwa [foldCarries_of_lt hlt]
    · rw [foldCarries_succ_of_le hge]
      exact ih (by omega)

/-- R60: 65536 is 1 modulo 65535, so moving the part above bit 15 down keeps the residue. -/
theorem foldCarries_modEq (fuel n : Nat) : foldCarries fuel n ≡ n [MOD 65535] := by
  induction fuel generalizing n with
  | zero => rfl
  | succ fuel ih =>
    obtain hlt | hge := lt_or_ge n 65536
    · rw [foldCarries_of_lt hlt]
    · have hround : n % 65536 + n / 65536 ≡ n [MOD 65535] := by rw [Nat.ModEq]; omega
      rw [foldCarries_succ_of_le hge]
      exact (ih _).trans hround

/-- R60: truncation drops `h * 65536` with `1 <= h < 65535`, which is `h` modulo 65535 and so does not keep the residue. -/
theorem truncated_not_modEq {n : Nat} (hge : 65536 ≤ n) (hlt : n < 0xFFFF0000) : ¬ n % 65536 ≡ n [MOD 65535] := by
  rw [Nat.ModEq]
  omega

/-! ### The two checksums -/

/-- R60: the folding receiver's checksum as a number. -/
theorem foldedChecksum_toNat (bs : List Byte) : (foldedChecksum bs).toNat = 0xFFFF - foldCarries (wsum bs) (wsum bs) := by
  rw [foldedChecksum, BitVec.toNat_ofNat]
  omega

/-- R60: both conventions complement 16 bits, so the checksums agree exactly when the sums do. -/
theorem checksum_eq_foldedChecksum_iff (bs : List Byte) :
    checksum bs = foldedChecksum bs ↔ wsum bs % 65536 = foldCarries (wsum bs) (wsum bs) := by
  have hfolded : foldCarries (wsum bs) (wsum bs) < 65536 := foldCarries_lt le_rfl
  rw [← BitVec.toNat_inj, checksum_toNat, foldedChecksum_toNat]
  omega

/-- Settles O37: without a carry both sums are the word sum; with one, the folded sum keeps its residue modulo 65535 and the truncated sum
does not. -/
theorem truncationAgainstFolding : Obligations.TruncationAgainstFolding := by
  intro bs
  rw [Ne, checksum_eq_foldedChecksum_iff]
  refine ⟨fun hlt => ?_, fun hge hlt heq => ?_⟩
  · rw [foldCarries_of_lt hlt, Nat.mod_eq_of_lt hlt]
  · have hresidue := foldCarries_modEq (wsum bs) (wsum bs)
    rw [← heq] at hresidue
    exact truncated_not_modEq hge hlt hresidue

end Sys2Proof.Machine
end
